-- ==== Sys2Proof/Word.lean ====
section
/-! DEFINITION. The word types of the CHIP-8 CORE (spec/00_scope.md R8, R9): every quantity of the hardware is an
unsigned value of a fixed width. -/

namespace Sys2Proof

/-- A memory byte or a general register (10_state.md R21, R29). -/
abbrev Byte := BitVec 8

/-- A 16-bit value: an opcode, the program counter, the index register, a return address. -/
abbrev Word := BitVec 16

/-- A 4-bit field naming one of the sixteen general registers (30_encoding.md R91, R93). -/
abbrev RegNum := BitVec 4

/-- The 12-bit address immediate `nnn` (30_encoding.md R91, R93). -/
abbrev Addr := BitVec 12

end Sys2Proof
end

