-- ==== Sys2Proof/Syntax.lean ====
section
/-! DEFINITION. The 34 instructions of spec/30_encoding.md R95, one constructor per row, in the table's order. An operand
has the width of its field (R91), so an operand out of range cannot be written down. -/

namespace Sys2Proof

/-- The instruction set. The y field of `8xy6` and `8xyE` is decoded and unused (R98), so `shr` and `shl` carry it; the low
nibble of families 5 and 9 is not examined (R97), so `seReg` and `sneReg` do not (log entry 14). -/
inductive Instr where
  /-- `00E0` CLS -/
  | cls
  /-- `00EE` RET -/
  | ret
  /-- `1nnn` JP nnn -/
  | jp (nnn : Addr)
  /-- `2nnn` CALL nnn -/
  | call (nnn : Addr)
  /-- `3xkk` SE Vx, kk -/
  | seImm (x : RegNum) (kk : Byte)
  /-- `4xkk` SNE Vx, kk -/
  | sneImm (x : RegNum) (kk : Byte)
  /-- `5xy0` SE Vx, Vy -/
  | seReg (x y : RegNum)
  /-- `6xkk` LD Vx, kk -/
  | ldImm (x : RegNum) (kk : Byte)
  /-- `7xkk` ADD Vx, kk -/
  | addImm (x : RegNum) (kk : Byte)
  /-- `8xy0` LD Vx, Vy -/
  | ldReg (x y : RegNum)
  /-- `8xy1` OR Vx, Vy -/
  | orReg (x y : RegNum)
  /-- `8xy2` AND Vx, Vy -/
  | andReg (x y : RegNum)
  /-- `8xy3` XOR Vx, Vy -/
  | xorReg (x y : RegNum)
  /-- `8xy4` ADD Vx, Vy -/
  | addReg (x y : RegNum)
  /-- `8xy5` SUB Vx, Vy -/
  | sub (x y : RegNum)
  /-- `8xy6` SHR Vx -/
  | shr (x y : RegNum)
  /-- `8xy7` SUBN Vx, Vy -/
  | subn (x y : RegNum)
  /-- `8xyE` SHL Vx -/
  | shl (x y : RegNum)
  /-- `9xy0` SNE Vx, Vy -/
  | sneReg (x y : RegNum)
  /-- `Annn` LD I, nnn -/
  | ldI (nnn : Addr)
  /-- `Bnnn` JP V0, nnn -/
  | jpV0 (nnn : Addr)
  /-- `Cxkk` RND Vx, kk -/
  | rnd (x : RegNum) (kk : Byte)
  /-- `Dxyn` DRW Vx, Vy, n -/
  | drw (x y : RegNum) (n : BitVec 4)
  /-- `Ex9E` SKP Vx -/
  | skp (x : RegNum)
  /-- `ExA1` SKNP Vx -/
  | sknp (x : RegNum)
  /-- `Fx07` LD Vx, DT -/
  | ldVxDt (x : RegNum)
  /-- `Fx0A` LD Vx, K -/
  | ldVxK (x : RegNum)
  /-- `Fx15` LD DT, Vx -/
  | ldDtVx (x : RegNum)
  /-- `Fx18` LD ST, Vx -/
  | ldStVx (x : RegNum)
  /-- `Fx1E` ADD I, Vx -/
  | addI (x : RegNum)
  /-- `Fx29` LD F, Vx -/
  | ldF (x : RegNum)
  /-- `Fx33` LD B, Vx -/
  | ldB (x : RegNum)
  /-- `Fx55` LD [I], Vx -/
  | storeRegs (x : RegNum)
  /-- `Fx65` LD Vx, [I] -/
  | loadRegs (x : RegNum)
  deriving DecidableEq, Repr

end Sys2Proof
end

