-- ==== Sys2Proof/WellFormed.lean ====
section
/-! DEFINITION. Well-formedness. An `Instr` cannot be ill-formed: each operand's type has exactly the values its field
admits (30_encoding.md R91, R93; "all 16 registers are reachable by both fields"). What can be ill-formed is a WORD: the
illegal words are listed here from 30_encoding.md R99, family by family, without reference to the decoder. -/

namespace Sys2Proof

/-- No operand of any instruction can be out of range, and the spec forbids no combination of operands (R93, R100). -/
def Instr.wellFormed : Instr → Bool
  | .cls => true
  | .ret => true
  | .jp _ => true
  | .call _ => true
  | .seImm _ _ => true
  | .sneImm _ _ => true
  | .seReg _ _ => true
  | .ldImm _ _ => true
  | .addImm _ _ => true
  | .ldReg _ _ => true
  | .orReg _ _ => true
  | .andReg _ _ => true
  | .xorReg _ _ => true
  | .addReg _ _ => true
  | .sub _ _ => true
  | .shr _ _ => true
  | .subn _ _ => true
  | .shl _ _ => true
  | .sneReg _ _ => true
  | .ldI _ => true
  | .jpV0 _ => true
  | .rnd _ _ => true
  | .drw _ _ _ => true
  | .skp _ => true
  | .sknp _ => true
  | .ldVxDt _ => true
  | .ldVxK _ => true
  | .ldDtVx _ => true
  | .ldStVx _ => true
  | .addI _ => true
  | .ldF _ => true
  | .ldB _ => true
  | .storeRegs _ => true
  | .loadRegs _ => true

/-- The low nibbles of family 8 that are no instruction (R99). -/
def illegalNibbles8 : List Nat := [0x8, 0x9, 0xA, 0xB, 0xC, 0xD, 0xF]

/-- The low bytes of family E that are instructions (R99). -/
def legalBytesE : List Nat := [0x9E, 0xA1]

/-- The low bytes of family F that are instructions (R99). -/
def legalBytesF : List Nat := [0x07, 0x0A, 0x15, 0x18, 0x1E, 0x29, 0x33, 0x55, 0x65]

/-- The illegal words, exactly as the table of R99 lists them. -/
def illegalWord (w : Word) : Bool :=
  let n := w.toNat
  (n / 0x1000 == 0 && n != 0x00E0 && n != 0x00EE)
    || (n / 0x1000 == 8 && illegalNibbles8.contains (n % 0x10))
    || (n / 0x1000 == 0xE && !legalBytesE.contains (n % 0x100))
    || (n / 0x1000 == 0xF && !legalBytesF.contains (n % 0x100))

end Sys2Proof
end

