-- ==== Sys2Proof/Decode.lean ====
section
/-! DEFINITION. Decoding and encoding (spec/30_encoding.md R90 to R100, spec/40_dispatch.md R123). The bit patterns are those
of R95; the spec took all but `1nnn` and `2nnn` from general knowledge (D2; log entry 1). -/

namespace Sys2Proof

/-- Why a sequence of bytes is no instruction. -/
inductive DecodeReject where
  /-- A word of family 0 other than `00E0`, `00EE` (R96). -/
  | family0 (w : Word)
  /-- A word of family 8 whose low nibble is 8 to D or F (R98). -/
  | family8 (w : Word)
  /-- A word of family E whose low byte is neither `9E` nor `A1` (R98). -/
  | familyE (w : Word)
  /-- A word of family F whose low byte names no instruction (R98). -/
  | familyF (w : Word)
  /-- Fewer than two bytes (R90: every instruction is exactly 2 bytes). -/
  | truncated
  deriving DecidableEq, Repr

/-! Fields (R91). -/

def fieldOp (w : Word) : BitVec 4 := w.extractLsb' 12 4
def fieldX (w : Word) : RegNum := w.extractLsb' 8 4
def fieldY (w : Word) : RegNum := w.extractLsb' 4 4
def fieldN (w : Word) : BitVec 4 := w.extractLsb' 0 4
def fieldKK (w : Word) : Byte := w.extractLsb' 0 8
def fieldNNN (w : Word) : Addr := w.extractLsb' 0 12

/-- Secondary selection of family 0, on the whole word (R96). -/
def decode0 (w : Word) : Except DecodeReject Instr :=
  if w = 0x00E0 then .ok .cls
  else if w = 0x00EE then .ok .ret
  else .error (.family0 w)

/-- Secondary selection of family 8, on the low nibble (R98). -/
def decode8 (w : Word) : Except DecodeReject Instr :=
  let x := fieldX w
  let y := fieldY w
  let n := fieldN w
  if n = 0x0 then .ok (.ldReg x y)
  else if n = 0x1 then .ok (.orReg x y)
  else if n = 0x2 then .ok (.andReg x y)
  else if n = 0x3 then .ok (.xorReg x y)
  else if n = 0x4 then .ok (.addReg x y)
  else if n = 0x5 then .ok (.sub x y)
  else if n = 0x6 then .ok (.shr x y)
  else if n = 0x7 then .ok (.subn x y)
  else if n = 0xE then .ok (.shl x y)
  else .error (.family8 w)

/-- Secondary selection of family E, on the low byte (R98). -/
def decodeE (w : Word) : Except DecodeReject Instr :=
  if fieldKK w = 0x9E then .ok (.skp (fieldX w))
  else if fieldKK w = 0xA1 then .ok (.sknp (fieldX w))
  else .error (.familyE w)

/-- Secondary selection of family F, on the low byte (R98). -/
def decodeF (w : Word) : Except DecodeReject Instr :=
  let x := fieldX w
  let kk := fieldKK w
  if kk = 0x07 then .ok (.ldVxDt x)
  else if kk = 0x0A then .ok (.ldVxK x)
  else if kk = 0x15 then .ok (.ldDtVx x)
  else if kk = 0x18 then .ok (.ldStVx x)
  else if kk = 0x1E then .ok (.addI x)
  else if kk = 0x29 then .ok (.ldF x)
  else if kk = 0x33 then .ok (.ldB x)
  else if kk = 0x55 then .ok (.storeRegs x)
  else if kk = 0x65 then .ok (.loadRegs x)
  else .error (.familyF w)

/-- The decision table of 40_dispatch.md R123: primary selection on the top nibble. Families 5 and 9 do not examine the low
nibble (R97). -/
def decodeWord (w : Word) : Except DecodeReject Instr :=
  let op := fieldOp w
  if op = 0x0 then decode0 w
  else if op = 0x1 then .ok (.jp (fieldNNN w))
  else if op = 0x2 then .ok (.call (fieldNNN w))
  else if op = 0x3 then .ok (.seImm (fieldX w) (fieldKK w))
  else if op = 0x4 then .ok (.sneImm (fieldX w) (fieldKK w))
  else if op = 0x5 then .ok (.seReg (fieldX w) (fieldY w))
  else if op = 0x6 then .ok (.ldImm (fieldX w) (fieldKK w))
  else if op = 0x7 then .ok (.addImm (fieldX w) (fieldKK w))
  else if op = 0x8 then decode8 w
  else if op = 0x9 then .ok (.sneReg (fieldX w) (fieldY w))
  else if op = 0xA then .ok (.ldI (fieldNNN w))
  else if op = 0xB then .ok (.jpV0 (fieldNNN w))
  else if op = 0xC then .ok (.rnd (fieldX w) (fieldKK w))
  else if op = 0xD then .ok (.drw (fieldX w) (fieldY w) (fieldN w))
  else if op = 0xE then decodeE w
  else decodeF w

/-- The big-endian word of two bytes, the first at the lower address (20_memory.md R60). -/
def wordOfBytes (hi lo : Byte) : Word := hi ++ lo

/-- The two bytes of a word in the order memory holds them (20_memory.md R60). -/
def bytesOfWord (w : Word) : List Byte := [w.extractLsb' 8 8, w.extractLsb' 0 8]

/-- Decode the instruction at the front of a list of bytes and return the bytes after it. -/
def decodeBytes : List Byte → Except DecodeReject (Instr × List Byte)
  | hi :: lo :: rest =>
    match decodeWord (wordOfBytes hi lo) with
    | .ok i => .ok (i, rest)
    | .error e => .error e
  | [_] => .error .truncated
  | [] => .error .truncated

/-! Encoding (R92, R95). -/

/-- Format NNN: a top nibble and a 12-bit field. -/
def formNNN (op : BitVec 4) (nnn : Addr) : Word := op ++ nnn

/-- Formats XKK and X: a top nibble, a register, a byte. -/
def formXKK (op : BitVec 4) (x : RegNum) (kk : Byte) : Word := op ++ (x ++ kk : BitVec 12)

/-- Formats XY and XYN: a top nibble, two registers, a nibble. -/
def formXYN (op : BitVec 4) (x y : RegNum) (n : BitVec 4) : Word := op ++ (x ++ (y ++ n : BitVec 8) : BitVec 12)

/-- The word of an instruction, by the patterns of R95; families 5 and 9 in their canonical spelling, low nibble 0 (R97). -/
def encode : Instr → Word
  | .cls => 0x00E0
  | .ret => 0x00EE
  | .jp nnn => formNNN 0x1 nnn
  | .call nnn => formNNN 0x2 nnn
  | .seImm x kk => formXKK 0x3 x kk
  | .sneImm x kk => formXKK 0x4 x kk
  | .seReg x y => formXYN 0x5 x y 0x0
  | .ldImm x kk => formXKK 0x6 x kk
  | .addImm x kk => formXKK 0x7 x kk
  | .ldReg x y => formXYN 0x8 x y 0x0
  | .orReg x y => formXYN 0x8 x y 0x1
  | .andReg x y => formXYN 0x8 x y 0x2
  | .xorReg x y => formXYN 0x8 x y 0x3
  | .addReg x y => formXYN 0x8 x y 0x4
  | .sub x y => formXYN 0x8 x y 0x5
  | .shr x y => formXYN 0x8 x y 0x6
  | .subn x y => formXYN 0x8 x y 0x7
  | .shl x y => formXYN 0x8 x y 0xE
  | .sneReg x y => formXYN 0x9 x y 0x0
  | .ldI nnn => formNNN 0xA nnn
  | .jpV0 nnn => formNNN 0xB nnn
  | .rnd x kk => formXKK 0xC x kk
  | .drw x y n => formXYN 0xD x y n
  | .skp x => formXKK 0xE x 0x9E
  | .sknp x => formXKK 0xE x 0xA1
  | .ldVxDt x => formXKK 0xF x 0x07
  | .ldVxK x => formXKK 0xF x 0x0A
  | .ldDtVx x => formXKK 0xF x 0x15
  | .ldStVx x => formXKK 0xF x 0x18
  | .addI x => formXKK 0xF x 0x1E
  | .ldF x => formXKK 0xF x 0x29
  | .ldB x => formXKK 0xF x 0x33
  | .storeRegs x => formXKK 0xF x 0x55
  | .loadRegs x => formXKK 0xF x 0x65

/-- The `mask` column of R95's row for an instruction. -/
def Instr.mask : Instr → Word
  | .cls => 0xFFFF
  | .ret => 0xFFFF
  | .jp _ => 0xF000
  | .call _ => 0xF000
  | .seImm _ _ => 0xF000
  | .sneImm _ _ => 0xF000
  | .seReg _ _ => 0xF000
  | .ldImm _ _ => 0xF000
  | .addImm _ _ => 0xF000
  | .ldReg _ _ => 0xF00F
  | .orReg _ _ => 0xF00F
  | .andReg _ _ => 0xF00F
  | .xorReg _ _ => 0xF00F
  | .addReg _ _ => 0xF00F
  | .sub _ _ => 0xF00F
  | .shr _ _ => 0xF00F
  | .subn _ _ => 0xF00F
  | .shl _ _ => 0xF00F
  | .sneReg _ _ => 0xF000
  | .ldI _ => 0xF000
  | .jpV0 _ => 0xF000
  | .rnd _ _ => 0xF000
  | .drw _ _ _ => 0xF000
  | .skp _ => 0xF0FF
  | .sknp _ => 0xF0FF
  | .ldVxDt _ => 0xF0FF
  | .ldVxK _ => 0xF0FF
  | .ldDtVx _ => 0xF0FF
  | .ldStVx _ => 0xF0FF
  | .addI _ => 0xF0FF
  | .ldF _ => 0xF0FF
  | .ldB _ => 0xF0FF
  | .storeRegs _ => 0xF0FF
  | .loadRegs _ => 0xF0FF

/-- The `match` column of R95's row for an instruction. -/
def Instr.pattern : Instr → Word
  | .cls => 0x00E0
  | .ret => 0x00EE
  | .jp _ => 0x1000
  | .call _ => 0x2000
  | .seImm _ _ => 0x3000
  | .sneImm _ _ => 0x4000
  | .seReg _ _ => 0x5000
  | .ldImm _ _ => 0x6000
  | .addImm _ _ => 0x7000
  | .ldReg _ _ => 0x8000
  | .orReg _ _ => 0x8001
  | .andReg _ _ => 0x8002
  | .xorReg _ _ => 0x8003
  | .addReg _ _ => 0x8004
  | .sub _ _ => 0x8005
  | .shr _ _ => 0x8006
  | .subn _ _ => 0x8007
  | .shl _ _ => 0x800E
  | .sneReg _ _ => 0x9000
  | .ldI _ => 0xA000
  | .jpV0 _ => 0xB000
  | .rnd _ _ => 0xC000
  | .drw _ _ _ => 0xD000
  | .skp _ => 0xE09E
  | .sknp _ => 0xE0A1
  | .ldVxDt _ => 0xF007
  | .ldVxK _ => 0xF00A
  | .ldDtVx _ => 0xF015
  | .ldStVx _ => 0xF018
  | .addI _ => 0xF01E
  | .ldF _ => 0xF029
  | .ldB _ => 0xF033
  | .storeRegs _ => 0xF055
  | .loadRegs _ => 0xF065

/-- The word that the opcode table's numbering calls `w` on `nbits` bits: bit 0 is the least significant bit, the bits at and
above `nbits` are 0. Every row has one 16-bit word. -/
def tableWord (nbits w : Nat) : Word := BitVec.ofNat 16 (w % 2 ^ nbits)

/-- The instruction the decoder reads from the bytes of a word of the opcode table, none where it rejects them. -/
def decodeTableWord (nbits w : Nat) : Option Instr :=
  match decodeBytes (bytesOfWord (tableWord nbits w)) with
  | .ok (i, _) => some i
  | .error _ => none

end Sys2Proof
end

