-- ==== Sys2Proof/Config.lean ====
section
/-! DEFINITION. What the spec leaves open: the random byte and the choice of a key (spec/93_implementation_defined.md: "The only
`any value` inputs are `rnd` and `keyPick`"), and the host's interleaving of events (spec/00_scope.md R7). No free value has a
body, so nothing can be proved of it. -/

namespace Sys2Proof

/-- The events of a run once it is launched (70_reset_and_hazards.md R295, step 4): "any interleaving of `cycle`, `tick` and
`set_key`". -/
inductive RunEvent where
  /-- `cycle(rnd)` (40_dispatch.md R120) -/
  | cycle (rnd : Byte)
  /-- `tick` (60_exceptions.md R265) -/
  | tick
  /-- `set_key(k, b)` (10_state.md R37) -/
  | setKey (k : Fin 16) (b : Bool)
  deriving DecidableEq, Repr, Inhabited

/-- FREE VALUE (00_scope.md R7, D20; log entry 4): the `n`-th event that a host issues when no list names its events. Every
infinite interleaving of the three events is a value of this constant. -/
opaque Config.freeEvent : Nat → RunEvent

/-- FREE VALUE (D13, log entry 5): the byte `rnd` that the host supplies with the `n`-th event of a host that issues
cycles only and whose events no list names. -/
opaque Config.freeRnd : Nat → Byte

/-- FREE VALUE (D12, log entry 6): the choice behind `keyPick`. `Machine.keyPick` takes it modulo the number of pressed keys,
so every admissible `keyPick` of 45_keypad_timers.md R233 arises from some value of this constant, and no other does. -/
opaque Config.keyChoice : Vector Bool 16 → Nat

end Sys2Proof
end

