-- ==== Sys2Proof/Machine/State.lean ====
section
/-! DEFINITION. The state of the CHIP-8 CORE: every piece that spec/10_state.md R20 lists, and, in one field of their own,
the inputs of the step that the spec keeps outside the state (R43). -/

namespace Sys2Proof.Machine

/-- The execution-mode status register (10_state.md R35). Nothing in the core reads it. -/
inductive Mode where
  /-- The last completed cycle was not a waiting `Fx0A`. -/
  | running
  /-- The last completed cycle was an `Fx0A` with `x = r` that found no key pressed. -/
  | awaitingKey (r : RegNum)
  deriving DecidableEq, Repr

/-- A fault record (10_state.md R34): one cause with its fields. A fault is TAKEN by the hardware: the record is written into
`State.fault` and the step answers a next state (60_exceptions.md R258, R264; log entry 7), so no step ends in
`Outcome.fault`: the spec has no stuck state (93_implementation_defined.md). -/
inductive Fault where
  /-- Code 1. Raised by the fetch when `pc > 0xFFE` (40_dispatch.md R121). Safe: the spec's own fault. -/
  | fetchRange (pc : Word)
  /-- Code 2. Raised by the decode step on a word that is no instruction (40_dispatch.md R124). Safe: the spec's own fault. -/
  | decode (pc opcode : Word)
  /-- Code 3. Raised by `2nnn` with `sp = 16` (41_control_flow.md R143). Safe: the spec's own fault. -/
  | stackOverflow (pc opcode : Word)
  /-- Code 4. Raised by `00EE` with `sp = 0` (41_control_flow.md R141). Safe: the spec's own fault. -/
  | stackUnderflow (pc opcode : Word)
  /-- Code 5. Raised by `Dxyn`, `Fx33`, `Fx55`, `Fx65` when `len` bytes at `addr` pass `0xFFF` (20_memory.md R64). Safe: the
  spec's own fault. -/
  | memoryRange (pc opcode addr : Word) (len : Nat)
  /-- Code 6. Raised by `Ex9E`, `ExA1` when the key number `value` is above 15 (45_keypad_timers.md R230). Safe: the spec's
  own fault. -/
  | keyIndex (pc opcode : Word) (value : Byte)
  deriving DecidableEq, Repr

/-- Why the model gives an event no meaning. -/
inductive Refusal where
  /-- Raised by an arm of `exec` whose instruction has no meaning yet. Safe: the machine stops. No arm raises it now. -/
  | notModelled (mnemonic : String)
  /-- Raised by the event `load_rom` issued a second time, or after the first cycle or tick (70_reset_and_hazards.md R294: "a
  model gives such a launch no meaning"). Safe: the machine stops. No instruction raises it. -/
  | loadOutsideBoot
  deriving DecidableEq, Repr

/-- The five events of 00_scope.md R6, all issued by the host. -/
inductive HostEvent where
  /-- `reset` (70_reset_and_hazards.md R290) -/
  | reset
  /-- `load_rom(bytes)` (70_reset_and_hazards.md R293) -/
  | loadRom (bytes : List Byte)
  /-- `set_key(k, b)` (10_state.md R37) -/
  | setKey (k : Fin 16) (b : Bool)
  /-- `cycle(rnd)` (40_dispatch.md R120) -/
  | cycle (rnd : Byte)
  /-- `tick` (60_exceptions.md R265) -/
  | tick
  deriving DecidableEq, Repr

/-- Memory: the cells that differ from their reset contents, by rising address (20_memory.md R66; log entry 12). -/
abbrev Memory := List Host.Cell

/-- The framebuffer (10_state.md R31): 32 rows, row 0 first; a row's column 0 is its most significant bit (log entry 24). -/
abbrev Framebuffer := Vector (BitVec 64) 32

/-- What the host issues once the list of its events is empty (log entry 4). -/
inductive Schedule where
  /-- any interleaving of `cycle`, `tick` and `set_key`: the free value `Config.freeEvent` -/
  | any
  /-- `cycle` alone, one of the interleavings: a placed program then runs by itself -/
  | cyclesOnly
  deriving DecidableEq, Repr

/-- The MODEL's own fields: the host's side of the interface, none of it state of the spec (10_state.md R43). -/
structure HostSide where
  /-- The events the host is going to issue, oldest first (00_scope.md R7; log entry 4). -/
  inputs : List HostEvent
  /-- What the host issues after them (00_scope.md R7; log entry 4). -/
  schedule : Schedule
  /-- The byte that the current cycle event carries (10_state.md R40; log entry 5). -/
  rnd : Byte
  /-- How many events `schedule` has supplied: the argument of the free values (log entries 4 and 5). -/
  freeCount : Nat
  /-- `load_rom` may still be issued (70_reset_and_hazards.md R294; log entry 10). -/
  bootOpen : Bool
  deriving DecidableEq, Repr

/-- The complete state of one machine (10_state.md R20), and the host's side of the interface. -/
structure State where
  /-- `V[0..15]` (R21) -/
  v : Vector Byte 16
  /-- `I` (R24) -/
  i : Word
  /-- `pc` (R25) -/
  pc : Word
  /-- `sp`, in 0..16 (R26, R27) -/
  sp : Fin 17
  /-- `stack[0..15]` (R26) -/
  stack : Vector Word 16
  /-- `DT` (R28) -/
  dt : Byte
  /-- `ST` (R28) -/
  st : Byte
  /-- `mem[0..4095]` (R29) -/
  mem : Memory
  /-- `fb[0..31][0..63]` (R31) -/
  fb : Framebuffer
  /-- `key[0..15]`, true = pressed (R32) -/
  key : Vector Bool 16
  /-- `fault` (R34) -/
  fault : Option Fault
  /-- `mode` (R35) -/
  mode : Mode
  /-- the model's own fields -/
  host : HostSide
  deriving DecidableEq, Repr

/-- The machine right after reset (10_state.md R42, 70_reset_and_hazards.md R290). Memory lists nothing: every byte holds its
reset contents, the glyph table included. -/
def State.reset : State where
  v := Vector.replicate 16 0
  i := 0
  pc := 0x200
  sp := 0
  stack := Vector.replicate 16 0
  dt := 0
  st := 0
  mem := []
  fb := Vector.replicate 32 0
  key := Vector.replicate 16 false
  fault := none
  mode := .running
  host := { inputs := [], schedule := .any, rnd := 0, freeCount := 0, bootOpen := true }

end Sys2Proof.Machine
end

