-- ==== Sys2Proof/Machine/Ops.lean ====
section
/-! DEFINITION. The named operations over registers, memory and the fault register (spec/00_scope.md R9, R10). -/

namespace Sys2Proof.Machine

/-- The answer of a meaning or of an event. -/
abbrev Result := Host.Outcome State Fault Refusal

/-! Registers. -/

/-- Read of general register `x` (10_state.md R21). -/
def State.reg (s : State) (x : RegNum) : Byte := s.v[x.toNat]

/-- Write of general register `x` (10_state.md R21). -/
def State.setReg (s : State) (x : RegNum) (b : Byte) : State := { s with v := s.v.set x.toNat b }

/-- `VF`, the register that receives flags (00_scope.md R5). -/
def flagReg : RegNum := 15

/-- Write consecutive registers from number `k` up, one byte each (43_index_memory.md R195). -/
def State.setRegsFrom (s : State) (k : Nat) : List Byte → State
  | [] => s
  | b :: bs => State.setRegsFrom (s.setReg (BitVec.ofNat 4 k) b) (k + 1) bs

/-- The address of the instruction being executed (00_scope.md R10: in a handler `pc = this_pc + 2`). -/
def State.thisPc (s : State) : Word := s.pc - 2

/-! Memory (20_memory.md). -/

/-- The glyph table (10_state.md R30). UNVERIFIED: the spec itself took the bytes from general knowledge (D19; log
entry 2). -/
def glyphTable : List Byte :=
  [0xF0, 0x90, 0x90, 0x90, 0xF0] ++ [0x20, 0x60, 0x20, 0x20, 0x70]
    ++ [0xF0, 0x10, 0xF0, 0x80, 0xF0] ++ [0xF0, 0x10, 0xF0, 0x10, 0xF0]
    ++ [0x90, 0x90, 0xF0, 0x10, 0x10] ++ [0xF0, 0x80, 0xF0, 0x10, 0xF0]
    ++ [0xF0, 0x80, 0xF0, 0x90, 0xF0] ++ [0xF0, 0x10, 0x20, 0x40, 0x40]
    ++ [0xF0, 0x90, 0xF0, 0x90, 0xF0] ++ [0xF0, 0x90, 0xF0, 0x10, 0xF0]
    ++ [0xF0, 0x90, 0xF0, 0x90, 0x90] ++ [0xE0, 0x90, 0xE0, 0x90, 0xE0]
    ++ [0xF0, 0x80, 0x80, 0x80, 0xF0] ++ [0xE0, 0x90, 0x90, 0x90, 0xE0]
    ++ [0xF0, 0x80, 0xF0, 0x80, 0xF0] ++ [0xF0, 0x80, 0xF0, 0x80, 0x80]

/-- What an unlisted address reads as: its reset contents (10_state.md R42, 20_memory.md R66). -/
def resetByte (a : Nat) : Byte := glyphTable.getD a 0

/-- The byte at an address (00_scope.md R10 `MemRead`; the caller has made the range check). -/
def Memory.read : Memory → Nat → Byte
  | [], a => resetByte a
  | c :: m, a => if c.1 = a then c.2 else Memory.read m a

/-- A cell in front of a memory, left out where it holds its reset contents. -/
def Memory.cons (a : Nat) (b : Byte) (m : Memory) : Memory := if b = resetByte a then m else (a, b) :: m

/-- Write one byte (00_scope.md R10 `MemWrite`; the caller has made the range check), keeping the canonical form. -/
def Memory.write : Memory → Nat → Byte → Memory
  | [], a, b => Memory.cons a b []
  | c :: m, a, b =>
    if a < c.1 then Memory.cons a b (c :: m)
    else if a = c.1 then Memory.cons a b m
    else c :: Memory.write m a b

/-- Write consecutive bytes, ascending (20_memory.md R61). -/
def Memory.writeBytes (m : Memory) (a : Nat) : List Byte → Memory
  | [] => m
  | b :: bs => Memory.writeBytes (Memory.write m a b) (a + 1) bs

/-- The `len` bytes from an address up (20_memory.md R61). -/
def Memory.readBytes (m : Memory) (a : Nat) : Nat → List Byte
  | 0 => []
  | len + 1 => Memory.read m a :: Memory.readBytes m (a + 1) len

/-- The canonical form: addresses strictly rising and inside the address space, no cell equal to its reset contents. -/
abbrev Memory.wf (m : Memory) : Prop :=
  m.Pairwise (fun c d => c.1 < d.1) ∧ ∀ c ∈ m, c.1 < 4096 ∧ c.2 ≠ resetByte c.1

/-- The range check of 20_memory.md R64 fails: `len >= 1` bytes at `a` pass `0xFFF`, on unbounded integers. -/
def outOfRange (a len : Nat) : Bool := decide (a + len - 1 > 0xFFF)

/-! How a cycle ends. -/

/-- A handler completes: `mode` becomes Running (40_dispatch.md R126). -/
def State.complete (s : State) : Result := .next { s with mode := .running }

/-- Fault entry (60_exceptions.md R258): the record is written, the cycle ends, nothing else changes. -/
def State.raise (s : State) (f : Fault) : Result := .next { s with fault := some f }

end Sys2Proof.Machine
end

