-- ==== Sys2Proof/Machine/Operands.lean ====
section
/-! DEFINITION. Every operand form of the spec beyond a plain register (spec/30_encoding.md R93, spec/43_index_memory.md R196). -/

namespace Sys2Proof.Machine

/-- `nnn` as a 16-bit address, zero-extended (R93). -/
def addrWord (nnn : Addr) : Word := nnn.setWidth 16

/-- The target of `Bnnn`: `nnn + V[0]`, not masked to 12 bits (41_control_flow.md R148). -/
def offsetTarget (nnn : Addr) (v0 : Byte) : Word := addrWord nnn + v0.setWidth 16

/-- The glyph address `5 * V[x]`, all 8 bits of `V[x]` used (43_index_memory.md R192). -/
def glyphAddr (b : Byte) : Word := 5 * b.setWidth 16

/-- Hundreds, tens and ones of a byte (43_index_memory.md R193). -/
def bcdDigits (b : Byte) : List Byte :=
  [BitVec.ofNat 8 (b.toNat / 100), BitVec.ofNat 8 (b.toNat / 10 % 10), BitVec.ofNat 8 (b.toNat % 10)]

/-- `len` consecutive registers from number `k` up (43_index_memory.md R194). -/
def State.regsFrom (s : State) (k : Nat) : Nat → List Byte
  | 0 => []
  | len + 1 => s.reg (BitVec.ofNat 4 k) :: State.regsFrom s (k + 1) len

/-- How many registers `Fx55` and `Fx65` move: `V0..Vx` with `Vx` (D15; log entry 15). -/
def regCount (x : RegNum) : Nat := x.toNat + 1

/-- A taken skip adds one more instruction width to the pre-advanced pc (41_control_flow.md R144). -/
def State.skipIf (s : State) (cond : Bool) : State := if cond then { s with pc := s.pc + 2 } else s

/-- The numbers of the pressed keys, rising (45_keypad_timers.md R233: "scans all 16 keys"). -/
def pressedKeys (key : Vector Bool 16) : List (Fin 16) := (List.finRange 16).filter fun k => key[k.val]

/-- `keyPick` (45_keypad_timers.md R233; D12): the number of a pressed key; which one of several is free. Used only where some
key is pressed. -/
def keyPick (key : Vector Bool 16) : Fin 16 :=
  match pressedKeys key with
  | [] => 0
  | [k] => k
  | k :: ks => (k :: ks).getD (Config.keyChoice key % (k :: ks).length) k

end Sys2Proof.Machine
end

