-- ==== Sys2Proof/Machine/ControlFlow.lean ====
section
/-! DEFINITION. Control transfer (spec/41_control_flow.md). Each meaning runs on the state with `pc` pre-advanced (R140). -/

namespace Sys2Proof.Machine

/-- `00EE` RET (R141). -/
def execRet (s : State) : Result :=
  if s.sp.val = 0 then s.raise (.stackUnderflow s.thisPc (encode .ret))
  else State.complete { s with
    sp := ⟨s.sp.val - 1, by have := s.sp.isLt; omega⟩
    pc := s.stack[s.sp.val - 1]'(by have := s.sp.isLt; omega) }

/-- `1nnn` JP nnn (R142). -/
def execJp (nnn : Addr) (s : State) : Result := State.complete { s with pc := addrWord nnn }

/-- `2nnn` CALL nnn (R143). -/
def execCall (nnn : Addr) (s : State) : Result :=
  if h : s.sp.val < 16 then
    State.complete { s with
      stack := s.stack.set s.sp.val s.pc
      sp := ⟨s.sp.val + 1, by omega⟩
      pc := addrWord nnn }
  else s.raise (.stackOverflow s.thisPc (encode (.call nnn)))

/-- `3xkk` SE Vx, kk (R144). -/
def execSeImm (x : RegNum) (kk : Byte) (s : State) : Result := (s.skipIf (decide (s.reg x = kk))).complete

/-- `4xkk` SNE Vx, kk (R145). -/
def execSneImm (x : RegNum) (kk : Byte) (s : State) : Result := (s.skipIf (decide (s.reg x ≠ kk))).complete

/-- `5xy0` SE Vx, Vy (R146). -/
def execSeReg (x y : RegNum) (s : State) : Result := (s.skipIf (decide (s.reg x = s.reg y))).complete

/-- `9xy0` SNE Vx, Vy (R147). -/
def execSneReg (x y : RegNum) (s : State) : Result := (s.skipIf (decide (s.reg x ≠ s.reg y))).complete

/-- `Bnnn` JP V0, nnn (R148). -/
def execJpV0 (nnn : Addr) (s : State) : Result := State.complete { s with pc := offsetTarget nnn (s.reg 0) }

end Sys2Proof.Machine
end

