-- ==== Sys2Proof/Machine/Flags.lean ====
section
/-! DEFINITION. Every flag computation of the spec, and the order in which a flag-writing instruction writes (spec/10_state.md
R22, R23). -/

namespace Sys2Proof.Machine

/-- A flag as the byte written to `VF`: always 0 or 1 (R22). -/
def flagByte (b : Bool) : Byte := if b then 1 else 0

/-- Carry out of the pre-truncation sum (42_load_alu.md R166). -/
def carryFlag (a b : Byte) : Bool := decide (a.toNat + b.toNat > 255)

/-- The strict comparison of the subtractions (42_load_alu.md R167, R169): not the usual not-borrow. -/
def greaterFlag (a b : Byte) : Bool := decide (a.toNat > b.toNat)

/-- The bit that a right shift by one shifts out (42_load_alu.md R168). -/
def lowBitFlag (a : Byte) : Bool := a.getLsbD 0

/-- The bit that a left shift by one shifts out (42_load_alu.md R170). -/
def highBitFlag (a : Byte) : Bool := a.getLsbD 7

/-- Write the result to `V[x]`, then the flag to `VF`, last (10_state.md R23; 90_conflicts.md C1). -/
def State.setRegFlag (s : State) (x : RegNum) (result : Byte) (flag : Bool) : State :=
  (s.setReg x result).setReg flagReg (flagByte flag)

end Sys2Proof.Machine
end

