-- ==== Sys2Proof/Machine/Display.lean ====
section
/-! DEFINITION. Display instructions (spec/44_display.md). -/

namespace Sys2Proof.Machine

/-- `fb[r][c]` (10_state.md R31): column 0 is a row's most significant bit; nothing is on outside the grid. -/
def Framebuffer.pixel (fb : Framebuffer) (r c : Nat) : Bool :=
  if h : r < 32 then fb[r].getMsbD c else false

/-- The pixels that a sprite byte toggles in a row of the grid, its bit 7 at column `x0` (R210). The columns past 63 are
shifted out: they are clipped, not wrapped (R212; D16). -/
def spriteRow (b : Byte) (x0 : Nat) : BitVec 64 := (b ++ (0 : BitVec 56)) >>> x0

/-- XOR a row of the grid with some toggles; a row past 31 is clipped (R212). -/
def Framebuffer.toggleRow (fb : Framebuffer) (r : Nat) (toggles : BitVec 64) : Framebuffer :=
  if h : r < 32 then fb.set r (fb[r] ^^^ toggles) else fb

/-- Some toggle hits a pixel that is on; a row past 31 takes no part (R212). -/
def Framebuffer.collides (fb : Framebuffer) (r : Nat) (toggles : BitVec 64) : Bool :=
  if h : r < 32 then decide (fb[r] &&& toggles ≠ 0) else false

/-- Draw sprite rows downwards from row `r` at column `x0`; the flag gathers the collisions of the whole sprite (R212). -/
def drawRows (fb : Framebuffer) (x0 r : Nat) : List Byte → Framebuffer × Bool
  | [] => (fb, false)
  | b :: bs =>
    let below := drawRows (fb.toggleRow r (spriteRow b x0)) x0 (r + 1) bs
    (below.1, fb.collides r (spriteRow b x0) || below.2)

/-- The start column, wrapped by masking (R212). -/
def startColumn (b : Byte) : Nat := (b &&& 63).toNat

/-- The start row, wrapped by masking (R212). -/
def startRow (b : Byte) : Nat := (b &&& 31).toNat

/-- `00E0` CLS (R211). -/
def execCls (s : State) : Result := State.complete { s with fb := Vector.replicate 32 0 }

/-- `Dxyn` DRW Vx, Vy, n (R212). With `n = 0` no byte is read, no range checked, and `VF` becomes 0 (D18). -/
def execDrw (x y : RegNum) (n : BitVec 4) (s : State) : Result :=
  if decide (1 ≤ n.toNat) && outOfRange s.i.toNat n.toNat then
    s.raise (.memoryRange s.thisPc (encode (.drw x y n)) s.i n.toNat)
  else
    let drawn := drawRows s.fb (startColumn (s.reg x)) (startRow (s.reg y)) (Memory.readBytes s.mem s.i.toNat n.toNat)
    (State.setReg { s with fb := drawn.1 } flagReg (flagByte drawn.2)).complete

end Sys2Proof.Machine
end

