-- ==== Sys2Proof/Machine/IndexMemory.lean ====
section
/-! DEFINITION. Index-register and memory instructions (spec/43_index_memory.md). The whole range is checked before the first
access (spec/20_memory.md R64). -/

namespace Sys2Proof.Machine

/-- `Annn` LD I, nnn (R190). -/
def execLdI (nnn : Addr) (s : State) : Result := State.complete { s with i := addrWord nnn }

/-- `Fx1E` ADD I, Vx (R191): modulo 65536, no flag. -/
def execAddI (x : RegNum) (s : State) : Result := State.complete { s with i := s.i + (s.reg x).setWidth 16 }

/-- `Fx29` LD F, Vx (R192). -/
def execLdF (x : RegNum) (s : State) : Result := State.complete { s with i := glyphAddr (s.reg x) }

/-- `Fx33` LD B, Vx (R193). -/
def execLdB (x : RegNum) (s : State) : Result :=
  if outOfRange s.i.toNat 3 then s.raise (.memoryRange s.thisPc (encode (.ldB x)) s.i 3)
  else State.complete { s with mem := Memory.writeBytes s.mem s.i.toNat (bcdDigits (s.reg x)) }

/-- `Fx55` LD [I], Vx (R194): `V0..Vx` inclusive, `I` unchanged. -/
def execStoreRegs (x : RegNum) (s : State) : Result :=
  if outOfRange s.i.toNat (regCount x) then
    s.raise (.memoryRange s.thisPc (encode (.storeRegs x)) s.i (regCount x))
  else State.complete { s with mem := Memory.writeBytes s.mem s.i.toNat (s.regsFrom 0 (regCount x)) }

/-- `Fx65` LD Vx, [I] (R195): `V0..Vx` inclusive, `I` unchanged. -/
def execLoadRegs (x : RegNum) (s : State) : Result :=
  if outOfRange s.i.toNat (regCount x) then
    s.raise (.memoryRange s.thisPc (encode (.loadRegs x)) s.i (regCount x))
  else (s.setRegsFrom 0 (Memory.readBytes s.mem s.i.toNat (regCount x))).complete

end Sys2Proof.Machine
end

