-- ==== Sys2Proof/Machine/KeypadTimers.lean ====
section
/-! DEFINITION. Keypad and timer instructions (spec/45_keypad_timers.md). -/

namespace Sys2Proof.Machine

/-- `Ex9E` SKP Vx (R230): a key number above 15 faults, it is not masked (D10). -/
def execSkp (x : RegNum) (s : State) : Result :=
  if h : (s.reg x).toNat < 16 then (s.skipIf s.key[(s.reg x).toNat]).complete
  else s.raise (.keyIndex s.thisPc (encode (.skp x)) (s.reg x))

/-- `ExA1` SKNP Vx (R231). -/
def execSknp (x : RegNum) (s : State) : Result :=
  if h : (s.reg x).toNat < 16 then (s.skipIf (!s.key[(s.reg x).toNat])).complete
  else s.raise (.keyIndex s.thisPc (encode (.sknp x)) (s.reg x))

/-- `Fx07` LD Vx, DT (R232). -/
def execLdVxDt (x : RegNum) (s : State) : Result := (s.setReg x s.dt).complete

/-- `Fx0A` LD Vx, K (R233): with no key pressed the pc goes back onto the instruction and `mode` says so (40_dispatch.md
R126). -/
def execLdVxK (x : RegNum) (s : State) : Result :=
  match pressedKeys s.key with
  | [] => .next { s with pc := s.pc - 2, mode := .awaitingKey x }
  | _ :: _ => (s.setReg x (BitVec.ofNat 8 (keyPick s.key).val)).complete

/-- `Fx15` LD DT, Vx (R234). -/
def execLdDtVx (x : RegNum) (s : State) : Result := State.complete { s with dt := s.reg x }

/-- `Fx18` LD ST, Vx (R235). -/
def execLdStVx (x : RegNum) (s : State) : Result := State.complete { s with st := s.reg x }

end Sys2Proof.Machine
end

