-- ==== Sys2Proof/Machine/LoadAlu.lean ====
section
/-! DEFINITION. Load, arithmetic, logical, shift and random instructions (spec/42_load_alu.md). The operands are read from the
state before any write (spec/10_state.md R23). -/

namespace Sys2Proof.Machine

/-- `6xkk` LD Vx, kk (R160). -/
def execLdImm (x : RegNum) (kk : Byte) (s : State) : Result := (s.setReg x kk).complete

/-- `7xkk` ADD Vx, kk (R161): no flag. -/
def execAddImm (x : RegNum) (kk : Byte) (s : State) : Result := (s.setReg x (s.reg x + kk)).complete

/-- `8xy0` LD Vx, Vy (R162). -/
def execLdReg (x y : RegNum) (s : State) : Result := (s.setReg x (s.reg y)).complete

/-- `8xy1` OR Vx, Vy (R163): no flag. -/
def execOrReg (x y : RegNum) (s : State) : Result := (s.setReg x (s.reg x ||| s.reg y)).complete

/-- `8xy2` AND Vx, Vy (R164): no flag. -/
def execAndReg (x y : RegNum) (s : State) : Result := (s.setReg x (s.reg x &&& s.reg y)).complete

/-- `8xy3` XOR Vx, Vy (R165): no flag. -/
def execXorReg (x y : RegNum) (s : State) : Result := (s.setReg x (s.reg x ^^^ s.reg y)).complete

/-- `8xy4` ADD Vx, Vy (R166). -/
def execAddReg (x y : RegNum) (s : State) : Result :=
  (s.setRegFlag x (s.reg x + s.reg y) (carryFlag (s.reg x) (s.reg y))).complete

/-- `8xy5` SUB Vx, Vy (R167). -/
def execSub (x y : RegNum) (s : State) : Result :=
  (s.setRegFlag x (s.reg x - s.reg y) (greaterFlag (s.reg x) (s.reg y))).complete

/-- `8xy6` SHR Vx (R168): `y` is not used. -/
def execShr (x _y : RegNum) (s : State) : Result :=
  (s.setRegFlag x (s.reg x >>> 1) (lowBitFlag (s.reg x))).complete

/-- `8xy7` SUBN Vx, Vy (R169). -/
def execSubn (x y : RegNum) (s : State) : Result :=
  (s.setRegFlag x (s.reg y - s.reg x) (greaterFlag (s.reg y) (s.reg x))).complete

/-- `8xyE` SHL Vx (R170): `y` is not used. -/
def execShl (x _y : RegNum) (s : State) : Result :=
  (s.setRegFlag x (s.reg x <<< 1) (highBitFlag (s.reg x))).complete

/-- `Cxkk` RND Vx, kk (R171): the byte is the one the current cycle event carries (10_state.md R40). -/
def execRnd (x : RegNum) (kk : Byte) (s : State) : Result := (s.setReg x (s.host.rnd &&& kk)).complete

end Sys2Proof.Machine
end

