-- ==== Sys2Proof/Machine/Events.lean ====
section
/-! DEFINITION. The five events (spec/00_scope.md R6): the cycle with its fetch and decode (spec/40_dispatch.md), the tick
(spec/60_exceptions.md R265), the key port, reset and the ROM load (spec/70_reset_and_hazards.md). -/

namespace Sys2Proof.Machine

/-! Fetch. -/

/-- The big-endian word at `pc` (20_memory.md R60; 40_dispatch.md R122). -/
def State.fetchWord (s : State) : Word :=
  wordOfBytes (Memory.read s.mem s.pc.toNat) (Memory.read s.mem (s.pc.toNat + 1))

/-- The fetch's range check passes (40_dispatch.md R121). -/
def State.canFetch (s : State) : Bool := decide (s.pc.toNat ≤ 0xFFE)

/-- The pre-advance by 2 (40_dispatch.md R122). -/
def State.preAdvance (s : State) : State := { s with pc := s.pc + 2 }

/-- A cycle of a machine that is not halted: steps 2 to 7 of 40_dispatch.md R120, with the checks in the order of
60_exceptions.md R261. -/
def runCycle (s : State) : Result :=
  if s.canFetch then
    match decodeWord s.fetchWord with
    | .ok i => exec i s.preAdvance
    | .error _ => s.preAdvance.raise (.decode s.pc s.fetchWord)
  else s.raise (.fetchRange s.pc)

/-! The events. -/

/-- A recorded fault halts the machine (40_dispatch.md R127; 60_exceptions.md R260). -/
def State.halted (s : State) : Bool := s.fault.isSome

/-- The launch window of `load_rom` closes with the first cycle or tick (70_reset_and_hazards.md R294). -/
def State.closeBoot (s : State) : State := { s with host := { s.host with bootOpen := false } }

/-- The byte that a cycle event carries becomes the one its instruction may read (10_state.md R40). -/
def State.latchRnd (s : State) (b : Byte) : State := { s with host := { s.host with rnd := b } }

/-- `cycle(rnd)` (40_dispatch.md R120): a halted machine does not change (R127). -/
def cycleEvent (b : Byte) (s : State) : Result :=
  if s.halted then .next s else runCycle (s.latchRnd b).closeBoot

/-- A timer one tick later: decremented, floored at 0 (60_exceptions.md R265). -/
def countDown (b : Byte) : Byte := if b = 0 then 0 else b - 1

/-- `tick` (60_exceptions.md R265): a halted machine does not change. -/
def tickEvent (s : State) : Result :=
  if s.halted then .next s else .next (State.closeBoot { s with dt := countDown s.dt, st := countDown s.st })

/-- `set_key(k, b)` (10_state.md R37), also on a halted machine. -/
def setKeyEvent (k : Fin 16) (b : Bool) (s : State) : Result := .next { s with key := s.key.set k.val b }

/-- `reset` (70_reset_and_hazards.md R290): the reset state; only the host's own side, what it is still going to issue, stays. -/
def resetEvent (s : State) : Result :=
  .next { State.reset with host := { s.host with bootOpen := true } }

/-- The largest ROM image (00_scope.md R5 `ROM_MAX`). -/
def romMax : Nat := 3584

/-- The copy of `load_rom` (70_reset_and_hazards.md R293): `none` is the LoadError reported to the host, with nothing changed. -/
def loadRom (bytes : List Byte) (s : State) : Option State :=
  if bytes.length > romMax then none
  else some { s with mem := Memory.writeBytes s.mem 0x200 bytes, host := { s.host with bootOpen := false } }

/-- `load_rom(bytes)`: refused outside the launch window, where the spec gives it no meaning (70_reset_and_hazards.md R294); a
LoadError leaves the machine as it is (R293; log entry 10). -/
def loadRomEvent (bytes : List Byte) (s : State) : Result :=
  if s.host.bootOpen then .next ((loadRom bytes s).getD s) else .refused .loadOutsideBoot

/-- One event, whole and atomic (00_scope.md R6). -/
def eventStep (e : HostEvent) (s : State) : Result :=
  match e with
  | .reset => resetEvent s
  | .loadRom bytes => loadRomEvent bytes s
  | .setKey k b => setKeyEvent k b s
  | .cycle b => cycleEvent b s
  | .tick => tickEvent s

/-- A run's event is one of the five. -/
def hostEventOf : RunEvent → HostEvent
  | .cycle b => .cycle b
  | .tick => .tick
  | .setKey k b => .setKey k b

/-- The `n`-th event that a schedule supplies (log entries 4 and 5). -/
def scheduled (sch : Schedule) (n : Nat) : HostEvent :=
  match sch with
  | .any => hostEventOf (Config.freeEvent n)
  | .cyclesOnly => .cycle (Config.freeRnd n)

/-- The event the host issues next and the state it meets: the oldest of `host.inputs`, else the next of its schedule
(00_scope.md R7; log entry 4). -/
def takeEvent (s : State) : HostEvent × State :=
  match s.host.inputs with
  | [] =>
    (scheduled s.host.schedule s.host.freeCount, { s with host := { s.host with freeCount := s.host.freeCount + 1 } })
  | e :: es => (e, { s with host := { s.host with inputs := es } })

/-- A state that fetches the given bytes next: they stand at `pc` (at `PROGRAM_BASE` where `pc` is out of range), no fault is
recorded and the host issues cycles (log entry 11). -/
def State.placeInstr (s : State) (bytes : List Byte) : State :=
  let pc : Word := if s.canFetch then s.pc else 0x200
  { s with
    pc := pc
    mem := Memory.writeBytes s.mem pc.toNat bytes
    fault := none
    host := { s.host with inputs := [], schedule := .cyclesOnly } }

end Sys2Proof.Machine
end

