-- ==== Sys2Proof/Machine/Step.lean ====
section
/-! DEFINITION. One step of the machine: one event of the host (spec/00_scope.md R6, R7). -/

namespace Sys2Proof.Machine

/-- Perform the event the host issues next. -/
def step (s : State) : Host.Outcome State Fault Refusal := eventStep (takeEvent s).1 (takeEvent s).2

/-- `s` with the opcode table's word `w` placed where the next step fetches. -/
def State.withFetchWord (s : State) (nbits w : Nat) : State := s.placeInstr (bytesOfWord (tableWord nbits w))

end Sys2Proof.Machine
end

