-- ==== Sys2Proof/Machine/Ports.lean ====
section
/-! DEFINITION. What the host can read between events (spec/10_state.md R36, R38, R39). Reading changes nothing. -/

namespace Sys2Proof.Machine

/-- The framebuffer port (R36): the pixel at row `r`, column `c`. -/
def State.pixel (s : State) (r c : Nat) : Bool := Framebuffer.pixel s.fb r c

/-- The audio port (R38): `tone_active`; the port also shows `st` itself. -/
def State.toneActive (s : State) : Bool := decide (s.st ≠ 0)

/-- The cause code of a fault record (R34; the numbering is the spec's own, D9). -/
def Fault.code : Fault → Nat
  | .fetchRange _ => 1
  | .decode _ _ => 2
  | .stackOverflow _ _ => 3
  | .stackUnderflow _ _ => 4
  | .memoryRange _ _ _ _ => 5
  | .keyIndex _ _ _ => 6

/-- `fault_pc` (R34). -/
def Fault.pc : Fault → Word
  | .fetchRange pc => pc
  | .decode pc _ => pc
  | .stackOverflow pc _ => pc
  | .stackUnderflow pc _ => pc
  | .memoryRange pc _ _ _ => pc
  | .keyIndex pc _ _ => pc

/-- `fault_opcode`; a FetchRangeFault records none, since no opcode was read (60_exceptions.md R253). -/
def Fault.opcode : Fault → Option Word
  | .fetchRange _ => none
  | .decode _ w => some w
  | .stackOverflow _ w => some w
  | .stackUnderflow _ w => some w
  | .memoryRange _ w _ _ => some w
  | .keyIndex _ w _ => some w

/-- The status port's fault code (R39): 0 where no fault is recorded. -/
def State.faultCode (s : State) : Nat :=
  match s.fault with
  | none => 0
  | some f => f.code

end Sys2Proof.Machine
end

