-- ==== Sys2Proof/Safety.lean ====
section
/-! DEFINITION. The terms in which claims are made: what a step leaves unchanged, what a launch and a normal end are, and the
invariants of the machine. -/

namespace Sys2Proof.Machine

/-! What a step leaves unchanged. -/

/-- The pieces of state (10_state.md R20) that a claim can name. -/
inductive Part where
  | regs
  | index
  | pc
  | sp
  | stack
  | delay
  | sound
  | mem
  | fb
  | key
  | fault
  | mode
  | host
  deriving DecidableEq, Repr

/-- A piece of state is the same in two states: registers and memory as they read. -/
def Same (p : Part) (s t : State) : Prop :=
  match p with
  | .regs => ∀ r, t.reg r = s.reg r
  | .index => t.i = s.i
  | .pc => t.pc = s.pc
  | .sp => t.sp = s.sp
  | .stack => t.stack = s.stack
  | .delay => t.dt = s.dt
  | .sound => t.st = s.st
  | .mem => ∀ a, Memory.read t.mem a = Memory.read s.mem a
  | .fb => t.fb = s.fb
  | .key => t.key = s.key
  | .fault => t.fault = s.fault
  | .mode => t.mode = s.mode
  | .host => t.host = s.host

/-- Every piece of state not named is the same. -/
def OnlyChanges (ps : List Part) (s t : State) : Prop := ∀ p, p ∉ ps → Same p s t

/-- Every register not named is the same. -/
def KeepsRegs (xs : List RegNum) (s t : State) : Prop := ∀ r, r ∉ xs → t.reg r = s.reg r

/-- Every byte outside the `len` bytes at `a` reads as before. -/
def KeepsMemoryOutside (a len : Nat) (s t : State) : Prop :=
  ∀ b, ¬(a ≤ b ∧ b < a + len) → Memory.read t.mem b = Memory.read s.mem b

/-- The pieces of state an instruction may write (the column "written by" of 10_state.md R20); each may record a fault or
set `mode`. -/
def mayWrite : Instr → List Part
  | .cls => [.fb, .mode]
  | .ret => [.pc, .sp, .fault, .mode]
  | .jp _ => [.pc, .mode]
  | .call _ => [.pc, .sp, .stack, .fault, .mode]
  | .seImm _ _ => [.pc, .mode]
  | .sneImm _ _ => [.pc, .mode]
  | .seReg _ _ => [.pc, .mode]
  | .ldImm _ _ => [.regs, .mode]
  | .addImm _ _ => [.regs, .mode]
  | .ldReg _ _ => [.regs, .mode]
  | .orReg _ _ => [.regs, .mode]
  | .andReg _ _ => [.regs, .mode]
  | .xorReg _ _ => [.regs, .mode]
  | .addReg _ _ => [.regs, .mode]
  | .sub _ _ => [.regs, .mode]
  | .shr _ _ => [.regs, .mode]
  | .subn _ _ => [.regs, .mode]
  | .shl _ _ => [.regs, .mode]
  | .sneReg _ _ => [.pc, .mode]
  | .ldI _ => [.index, .mode]
  | .jpV0 _ => [.pc, .mode]
  | .rnd _ _ => [.regs, .mode]
  | .drw _ _ _ => [.regs, .fb, .fault, .mode]
  | .skp _ => [.pc, .fault, .mode]
  | .sknp _ => [.pc, .fault, .mode]
  | .ldVxDt _ => [.regs, .mode]
  | .ldVxK _ => [.regs, .pc, .mode]
  | .ldDtVx _ => [.delay, .mode]
  | .ldStVx _ => [.sound, .mode]
  | .addI _ => [.index, .mode]
  | .ldF _ => [.index, .mode]
  | .ldB _ => [.mem, .fault, .mode]
  | .storeRegs _ => [.mem, .fault, .mode]
  | .loadRegs _ => [.regs, .fault, .mode]

/-- The general registers an instruction may write: its destination, and `VF` for the six flag-writing instructions
(10_state.md R22). -/
def writtenRegs : Instr → List RegNum
  | .cls => []
  | .ret => []
  | .jp _ => []
  | .call _ => []
  | .seImm _ _ => []
  | .sneImm _ _ => []
  | .seReg _ _ => []
  | .ldImm x _ => [x]
  | .addImm x _ => [x]
  | .ldReg x _ => [x]
  | .orReg x _ => [x]
  | .andReg x _ => [x]
  | .xorReg x _ => [x]
  | .addReg x _ => [x, 15]
  | .sub x _ => [x, 15]
  | .shr x _ => [x, 15]
  | .subn x _ => [x, 15]
  | .shl x _ => [x, 15]
  | .sneReg _ _ => []
  | .ldI _ => []
  | .jpV0 _ => []
  | .rnd x _ => [x]
  | .drw _ _ _ => [15]
  | .skp _ => []
  | .sknp _ => []
  | .ldVxDt x => [x]
  | .ldVxK x => [x]
  | .ldDtVx _ => []
  | .ldStVx _ => []
  | .addI _ => []
  | .ldF _ => []
  | .ldB _ => []
  | .storeRegs _ => []
  | .loadRegs x => (List.range (x.toNat + 1)).map (BitVec.ofNat 4)

/-- How many bytes of memory an instruction accesses through `I`, so many that its range check covers (the table of
20_memory.md R65). -/
def accessLen : Instr → Nat
  | .cls => 0
  | .ret => 0
  | .jp _ => 0
  | .call _ => 0
  | .seImm _ _ => 0
  | .sneImm _ _ => 0
  | .seReg _ _ => 0
  | .ldImm _ _ => 0
  | .addImm _ _ => 0
  | .ldReg _ _ => 0
  | .orReg _ _ => 0
  | .andReg _ _ => 0
  | .xorReg _ _ => 0
  | .addReg _ _ => 0
  | .sub _ _ => 0
  | .shr _ _ => 0
  | .subn _ _ => 0
  | .shl _ _ => 0
  | .sneReg _ _ => 0
  | .ldI _ => 0
  | .jpV0 _ => 0
  | .rnd _ _ => 0
  | .drw _ _ n => n.toNat
  | .skp _ => 0
  | .sknp _ => 0
  | .ldVxDt _ => 0
  | .ldVxK _ => 0
  | .ldDtVx _ => 0
  | .ldStVx _ => 0
  | .addI _ => 0
  | .ldF _ => 0
  | .ldB _ => 3
  | .storeRegs x => x.toNat + 1
  | .loadRegs x => x.toNat + 1

/-- The canonical spelling of a word (30_encoding.md R97): the unexamined low nibble of families 5 and 9 set to 0. -/
def canonicalWord (w : Word) : Word := if fieldOp w = 0x5 ∨ fieldOp w = 0x9 then w &&& 0xFFF0 else w

/-! How an instruction completes. -/

/-- The instruction completes: it writes `b` to `V[x]` and changes nothing else but `mode`. -/
def WritesReg (i : Instr) (x : RegNum) (b : Byte) (s : State) : Prop :=
  ∃ t, exec i s = .next t ∧ t.reg x = b ∧ KeepsRegs [x] s t ∧ OnlyChanges [.regs, .mode] s t ∧ t.mode = .running

/-- The instruction completes: `VF` ends with the flag whatever `x` is, `V[x]` with the result where `x` is not 15, and
nothing else changes but `mode` (10_state.md R23). -/
def WritesRegFlag (i : Instr) (x : RegNum) (result flag : Byte) (s : State) : Prop :=
  ∃ t, exec i s = .next t ∧ t.reg 15 = flag ∧ (x ≠ 15 → t.reg x = result) ∧ KeepsRegs [x, 15] s t
    ∧ OnlyChanges [.regs, .mode] s t ∧ t.mode = .running

/-- The instruction completes: `pc` becomes `target` and nothing else changes but `mode`. -/
def GoesTo (i : Instr) (target : Word) (s : State) : Prop :=
  ∃ t, exec i s = .next t ∧ t.pc = target ∧ OnlyChanges [.pc, .mode] s t ∧ t.mode = .running

/-- The instruction completes: `I` becomes `a` and nothing else changes but `mode`. -/
def WritesIndex (i : Instr) (a : Nat) (s : State) : Prop :=
  ∃ t, exec i s = .next t ∧ t.i.toNat = a ∧ OnlyChanges [.index, .mode] s t ∧ t.mode = .running

/-- The instruction faults: the record is written and nothing else changes (60_exceptions.md R258). -/
def Faults (i : Instr) (f : Fault) (s : State) : Prop := exec i s = .next { s with fault := some f }

/-- The sprite of `Dxyn` has a set bit at row `r`, column `c` of the grid (44_display.md R212): the start is wrapped by masking,
sprite row `r - y0` is the byte at `I + (r - y0)`, and sprite column `c - x0` is its bit `7 - (c - x0)`. -/
def spriteBit (s : State) (x y : RegNum) (n : BitVec 4) (r c : Nat) : Bool :=
  let x0 := (s.reg x &&& 63).toNat
  let y0 := (s.reg y &&& 31).toNat
  decide (y0 ≤ r ∧ r < y0 + n.toNat ∧ x0 ≤ c ∧ c < x0 + 8)
    && (Memory.read s.mem (s.i.toNat + (r - y0))).getLsbD (7 - (c - x0))

/-- The range that `Dxyn` reads lies in memory, or is empty (44_display.md R212). -/
def SpriteInRange (s : State) (n : BitVec 4) : Prop := n = 0 ∨ s.i.toNat + n.toNat - 1 ≤ 0xFFF

/-- The event a step performs. -/
def nextEvent (s : State) : HostEvent := (takeEvent s).1

/-! Runs. -/

/-- No fault is recorded: the premise and the conclusion of every claim about a correct run (60_exceptions.md R260). -/
def State.noFault (s : State) : Prop := s.fault = none

/-- The launch state of a run (70_reset_and_hazards.md R295): the reset state with the image at `0x200`. -/
def Launched (image : List Byte) (s : State) : Prop :=
  (∀ r, s.reg r = 0) ∧ s.i = 0 ∧ s.pc = 0x200 ∧ s.sp = 0 ∧ s.stack = Vector.replicate 16 0 ∧ s.dt = 0 ∧ s.st = 0
    ∧ s.fb = Vector.replicate 32 0 ∧ s.key = Vector.replicate 16 false ∧ s.fault = none ∧ s.mode = .running
    ∧ (∀ a, a < 0x50 → Memory.read s.mem a = glyphTable.getD a 0)
    ∧ (∀ k, k < image.length → Memory.read s.mem (0x200 + k) = image.getD k 0)
    ∧ (∀ a, 0x50 ≤ a → a < 0x200 ∨ 0x200 + image.length ≤ a → Memory.read s.mem a = 0)

/-- The spec's convention for the normal end of a run (70_reset_and_hazards.md R306): `pc` stands on a self-jump. -/
def Finished (s : State) : Prop :=
  s.fault = none ∧ s.canFetch = true ∧ s.fetchWord = encode (.jp (s.pc.setWidth 12))

/-- An infinite run of the machine. -/
def RunOf (states : Nat → State) : Prop := ∀ n, step (states n) = .next (states (n + 1))

/-- The states go through an infinite interleaving of events, one event each (00_scope.md R6, R7). -/
def Executes (events : Nat → RunEvent) (states : Nat → State) : Prop :=
  ∀ n, eventStep (hostEventOf (events n)) (states n) = .next (states (n + 1))

/-- Tick fairness of an infinite sequence of events (70_reset_and_hazards.md R304): infinitely many cycles come with
infinitely many ticks. -/
def TickFair (events : Nat → HostEvent) : Prop :=
  (∀ n, ∃ m b, n ≤ m ∧ events m = .cycle b) → ∀ n, ∃ m, n ≤ m ∧ events m = .tick

/-- A tick-fair infinite run: the premise of a claim that a delay loop ends (70_reset_and_hazards.md R304). -/
def TickFairRun (states : Nat → State) : Prop := RunOf states ∧ TickFair fun n => nextEvent (states n)

/-! Invariants. -/

/-- The memory keeps its canonical form. -/
def MemoryInv (s : State) : Prop := Memory.wf s.mem

/-- 10_state.md R25: "the largest value any rule can give it is `0x10FE`"; a pushed return address is at most `0x1000`
(41_control_flow.md R143). -/
def PcInv (s : State) : Prop :=
  s.pc.toNat ≤ 0x10FE ∧ ∀ k, (h : k < 16) → (s.stack[k]).toNat ≤ 0x1000

/-- While `mode` says the machine waits for a key, `pc` stands on the waiting `Fx0A` (45_keypad_timers.md R233) and the ROM can
no longer be replaced. -/
def WaitInv (s : State) : Prop :=
  ∀ x, s.mode = .awaitingKey x →
    s.fault = none ∧ s.canFetch = true ∧ s.fetchWord = encode (.ldVxK x) ∧ s.host.bootOpen = false

/-- The fault came from the word `w` fetched at `pc`, which memory still holds, and left `pc` advanced (60_exceptions.md
R258). -/
def FetchedFrom (s : State) (pc w : Word) : Prop :=
  pc.toNat ≤ 0xFFE ∧ w = wordOfBytes (Memory.read s.mem pc.toNat) (Memory.read s.mem (pc.toNat + 1)) ∧ s.pc = pc + 2

/-- What a recorded fault says is true of the state it preserves (10_state.md R34; 60_exceptions.md R258, R259): its cause's
condition holds, and each recorded field is that of the state. -/
def FaultFits (s : State) : Fault → Prop
  | .fetchRange pc => pc.toNat > 0xFFE ∧ s.pc = pc
  | .decode pc w => FetchedFrom s pc w ∧ illegalWord w = true
  | .stackOverflow pc w => FetchedFrom s pc w ∧ (∃ nnn, w = encode (.call nnn)) ∧ s.sp.val = 16
  | .stackUnderflow pc w => FetchedFrom s pc w ∧ w = encode .ret ∧ s.sp.val = 0
  | .memoryRange pc w addr len =>
    FetchedFrom s pc w ∧ (∃ i, w = encode i ∧ len = accessLen i) ∧ 1 ≤ len ∧ addr = s.i ∧ addr.toNat + len - 1 > 0xFFF
  | .keyIndex pc w b =>
    FetchedFrom s pc w ∧ (∃ x, (w = encode (.skp x) ∨ w = encode (.sknp x)) ∧ b = s.reg x) ∧ b.toNat > 15

/-- Every recorded fault fits the state it preserves, and came after the launch (that `load_rom` is then refused is the model's
form of 70_reset_and_hazards.md R294, log entry 10). -/
def FaultInv (s : State) : Prop := ∀ f, s.fault = some f → FaultFits s f ∧ s.host.bootOpen = false

end Sys2Proof.Machine
end

