-- ==== Sys2Proof/Certificates/Slice0/Obligations.lean ====
section
/-! DEFINITION. The statements about the machine, each from the rules of spec/ that its docstring names. -/

open Sys2Proof Sys2Proof.Machine

/-! Reset, events and the step. -/

/-- R42: the value of every piece of state after reset. The glyph bytes are those of R30 (log entry 2). -/
def Obligations.ResetState : Prop :=
  (∀ r, State.reset.reg r = 0) ∧ State.reset.i = 0 ∧ State.reset.pc = 0x200 ∧ State.reset.sp = 0
    ∧ (∀ k, (h : k < 16) → State.reset.stack[k] = 0) ∧ State.reset.dt = 0 ∧ State.reset.st = 0
    ∧ (∀ a, a < 0x50 → Memory.read State.reset.mem a = glyphTable.getD a 0)
    ∧ (∀ a, 0x50 ≤ a → Memory.read State.reset.mem a = 0)
    ∧ (∀ r c, State.reset.pixel r c = false) ∧ (∀ k, (h : k < 16) → State.reset.key[k] = false)
    ∧ State.reset.fault = none ∧ State.reset.mode = .running

/-- R6, R7: a step performs the event the host issues next; the events in `host.inputs` and their order are any. Where
the list is empty it is the next event of the host's schedule. The list and the schedule are the model's choice (log entry
4). -/
def Obligations.StepPerformsOldestEvent : Prop :=
  ∀ s : State,
    (∀ e es, s.host.inputs = e :: es → step s = eventStep e { s with host := { s.host with inputs := es } })
    ∧ (s.host.inputs = [] → s.host.schedule = .any → step s = eventStep (hostEventOf (Config.freeEvent s.host.freeCount))
        { s with host := { s.host with freeCount := s.host.freeCount + 1 } })
    ∧ (s.host.inputs = [] → s.host.schedule = .cyclesOnly → ∃ b, step s = eventStep (.cycle b)
        { s with host := { s.host with freeCount := s.host.freeCount + 1 } })

/-- R7 (the spec's own decision D20): from every state, every infinite interleaving of `cycle`, `tick` and `set_key` happens;
no event of it is refused. -/
def Obligations.EveryInterleavingExecutes : Prop :=
  ∀ (events : Nat → RunEvent) (s : State), ∃ states, states 0 = s ∧ Executes events states

/-- R7, R304: a host whose events no list names runs for ever on `Config.freeEvent`, which is any interleaving (log entry 4);
where that interleaving is tick fair, so is the run. -/
def Obligations.FreeHostRunsForEver : Prop :=
  ∀ s : State, s.host.inputs = [] → s.host.schedule = .any →
    ∃ states, states 0 = s ∧ RunOf states
      ∧ (∀ n, nextEvent (states n) = hostEventOf (Config.freeEvent (s.host.freeCount + n)))
      ∧ (TickFair (fun n => hostEventOf (Config.freeEvent (s.host.freeCount + n))) → TickFairRun states)

/-- R120, R122, R123, R125: where the word at `pc` decodes to `i`, a cycle is `exec i` on the state with `pc` advanced by 2.
Around it the step takes the event from `host.inputs`, latches its byte and closes the launch window: the model's own
fields (log entries 4, 5, 10). -/
def Obligations.StepRunsDecoded : Prop :=
  ∀ (s : State) (i : Instr), s.fault = none → s.pc.toNat ≤ 0xFFE →
    decodeWord (wordOfBytes (Memory.read s.mem s.pc.toNat) (Memory.read s.mem (s.pc.toNat + 1))) = .ok i →
    (∀ b, eventStep (.cycle b) s = exec i { s with
        pc := s.pc + 2
        host := { s.host with rnd := b, bootOpen := false } })
    ∧ (∀ b es, s.host.inputs = .cycle b :: es → step s = exec i { s with
        pc := s.pc + 2
        host := { s.host with inputs := es, rnd := b, bootOpen := false } })
    ∧ (s.host.inputs = [] → s.host.schedule = .cyclesOnly → step s = exec i { s with
        pc := s.pc + 2
        host := { s.host with
          rnd := Config.freeRnd s.host.freeCount, freeCount := s.host.freeCount + 1, bootOpen := false } })

/-- R121 (the spec's own decision D7): a cycle with `pc` above `0xFFE` records a FetchRangeFault; `pc` is not advanced. -/
def Obligations.FetchRangeFaults : Prop :=
  ∀ (b : Byte) (s : State), s.fault = none → s.pc.toNat > 0xFFE →
    ∃ t, eventStep (.cycle b) s = .next t ∧ t.fault = some (.fetchRange s.pc) ∧ OnlyChanges [.fault, .host] s t

/-- R124: a cycle that fetches an illegal word records a DecodeFault; `pc` has been advanced, nothing else changes. -/
def Obligations.DecodeFaults : Prop :=
  ∀ (b : Byte) (s : State), s.fault = none → s.pc.toNat ≤ 0xFFE → illegalWord s.fetchWord = true →
    ∃ t, eventStep (.cycle b) s = .next t ∧ t.fault = some (.decode s.pc s.fetchWord) ∧ t.pc = s.pc + 2
      ∧ OnlyChanges [.pc, .fault, .host] s t

/-- R127, R265: a cycle or a tick of a halted machine changes nothing. The spec offers a second form of this and the model
chose this one (log entry 8). -/
def Obligations.HaltedMachineStands : Prop :=
  ∀ (s : State) (f : Fault) (b : Byte), s.fault = some f →
    eventStep (.cycle b) s = .next s ∧ eventStep .tick s = .next s

/-- R260 (the spec's own decision D8): once recorded, a fault stays, and with it the state it preserves, whatever the host
does short of `reset`; only the keypad, by `set_key`, can change. That `load_rom` cannot is the model's form of R294 (log
entry 10). -/
def Obligations.FaultIsTerminal : Prop :=
  ∀ (s t : State) (f : Fault), FaultInv s → s.fault = some f → step s = .next t → nextEvent s ≠ .reset →
    t.fault = some f ∧ OnlyChanges [.key, .host] s t
      ∧ ((∀ k b, nextEvent s ≠ .setKey k b) → t.key = s.key)

/-- R265: a tick decrements both timers, floored at 0, and changes nothing else of the machine's state; on a halted machine it
changes nothing (that clause is the spec's own decision D8). Of the host's side, the launch window closes (log entry 10). -/
def Obligations.TickDecrements : Prop :=
  ∀ s : State,
    (s.fault = none → ∃ t, eventStep .tick s = .next t ∧ t.dt.toNat = s.dt.toNat - 1 ∧ t.st.toNat = s.st.toNat - 1
      ∧ OnlyChanges [.delay, .sound, .host] s t)
    ∧ (s.fault ≠ none → eventStep .tick s = .next s)

/-- R266: after `n` ticks a counter holds its value minus `n`, floored at 0. That the ticks stand in `host.inputs`, and what
is left of that list, is the model's choice (log entry 4). -/
def Obligations.TimerLaw : Prop :=
  ∀ (n : Nat) (s : State) (rest : List HostEvent), s.fault = none → s.host.inputs = List.replicate n .tick ++ rest →
    ∃ t : State, Host.Core.run Sys2Proof.core n s = .next t ∧ t.dt.toNat = s.dt.toNat - n ∧ t.st.toNat = s.st.toNat - n
      ∧ OnlyChanges [.delay, .sound, .host] s t ∧ t.host.inputs = rest

/-- R37: `set_key(k, b)` writes one flag and changes nothing else, also while a fault is recorded. -/
def Obligations.SetKeyWritesOneFlag : Prop :=
  ∀ (s : State) (k : Fin 16) (b : Bool), ∃ t, eventStep (.setKey k b) s = .next t ∧ t.key[k.val] = b
    ∧ (∀ j : Fin 16, j ≠ k → t.key[j.val] = s.key[j.val]) ∧ OnlyChanges [.key] s t

/-- R290: `reset` puts every piece of state at its reset value, whatever went before. The host keeps what it is still going
to issue (the model's own field, log entry 4). -/
def Obligations.ResetEventClears : Prop :=
  ∀ s : State, ∃ t, eventStep .reset s = .next t ∧ t = { State.reset with host := t.host }
    ∧ t.host = { s.host with bootOpen := true }

/-- R293: an image of at most 3584 bytes is copied verbatim to `0x200` up; a longer one is a LoadError and changes nothing.
That the report is no part of the state, and the launch window, are the model's choice (log entry 10). -/
def Obligations.LoadRomCopies : Prop :=
  ∀ (bytes : List Byte) (s : State), s.host.bootOpen = true →
    (bytes.length > 3584 → loadRom bytes s = none ∧ eventStep (.loadRom bytes) s = .next s)
    ∧ (bytes.length ≤ 3584 → ∃ t, eventStep (.loadRom bytes) s = .next t
        ∧ (Memory.wf s.mem → ∀ k, k < bytes.length → Memory.read t.mem (0x200 + k) = bytes.getD k 0)
        ∧ KeepsMemoryOutside 0x200 bytes.length s t ∧ OnlyChanges [.mem, .host] s t)

/-- R294, in the form the model chose for it (log entry 10): after the first cycle or tick of a run, or a load that succeeded,
`load_rom` has no meaning. -/
def Obligations.LoadRomOnlyAtBoot : Prop :=
  ∀ (bytes : List Byte) (s t : State),
    (s.host.bootOpen = false → eventStep (.loadRom bytes) s = .refused .loadOutsideBoot)
    ∧ (s.fault = none → eventStep .tick s = .next t → t.host.bootOpen = false)
    ∧ (∀ b, s.fault = none → eventStep (.cycle b) s = .next t → t.host.bootOpen = false)
    ∧ (bytes.length ≤ 3584 → eventStep (.loadRom bytes) s = .next t → t.host.bootOpen = false)

/-- R295: from the reset state, `load_rom(image)` gives the launch state. That the event stands in `host.inputs` is the
model's choice (log entry 4). -/
def Obligations.LaunchFromReset : Prop :=
  ∀ image : List Byte, image.length ≤ 3584 →
    ∃ t, step { State.reset with host := { State.reset.host with inputs := [.loadRom image] } } = .next t
      ∧ Launched image t

/-- R306 (the spec's own convention, D22): at a self-jump a further cycle leaves the state as it is (`mode` is written
Running), so the run stays finished. -/
def Obligations.SelfJumpIsFinal : Prop :=
  ∀ (s : State) (b : Byte), Finished s →
    ∃ t, eventStep (.cycle b) s = .next t ∧ Finished t ∧ OnlyChanges [.mode, .host] s t ∧ t.mode = .running

/-- R71 (an inference of the spec from R69 and R120): a store into the two bytes at `pc` is what the next fetch reads. -/
def Obligations.FetchSeesStores : Prop :=
  ∀ (x : RegNum) (s : State), Memory.wf s.mem → s.i = s.pc → 1 ≤ x.toNat → s.pc.toNat + x.toNat ≤ 0xFFF →
    ∃ t, exec (.storeRegs x) s = .next t ∧ t.fetchWord = wordOfBytes (s.reg 0) (s.reg 1)

/-! Encoding. -/

/-- R95: words written out bit by bit from the table, one of each family (top nibble) and so of each format. -/
def Obligations.DecodeSamples : Prop :=
  decodeWord 0b0000000011100000 = .ok .cls
    ∧ decodeWord 0b0001001000000101 = .ok (.jp 0x205)
    ∧ decodeWord 0b0010101010111100 = .ok (.call 0xABC)
    ∧ decodeWord 0b0011101000000111 = .ok (.seImm 0xA 0x07)
    ∧ decodeWord 0b0100101000000111 = .ok (.sneImm 0xA 0x07)
    ∧ decodeWord 0b0101000100100000 = .ok (.seReg 0x1 0x2)
    ∧ decodeWord 0b0110111100010010 = .ok (.ldImm 0xF 0x12)
    ∧ decodeWord 0b0111000111111111 = .ok (.addImm 0x1 0xFF)
    ∧ decodeWord 0b1000000100100111 = .ok (.subn 0x1 0x2)
    ∧ decodeWord 0b1001000100100000 = .ok (.sneReg 0x1 0x2)
    ∧ decodeWord 0b1010001011110000 = .ok (.ldI 0x2F0)
    ∧ decodeWord 0b1011001100000000 = .ok (.jpV0 0x300)
    ∧ decodeWord 0b1100000100001111 = .ok (.rnd 0x1 0x0F)
    ∧ decodeWord 0b1101000100100101 = .ok (.drw 0x1 0x2 0x5)
    ∧ decodeWord 0b1110001110100001 = .ok (.sknp 0x3)
    ∧ decodeWord 0b1111001001010101 = .ok (.storeRegs 0x2)

/-- R95: decoding the encoding of an instruction gives the instruction, every operand at every value. -/
def Obligations.DecodeOfEncode : Prop :=
  ∀ i : Instr, decodeWord (encode i) = .ok i ∧ ∀ rest, decodeBytes (bytesOfWord (encode i) ++ rest) = .ok (i, rest)

/-- R97, R98, R100: a word that decodes is the encoding of what it decodes to, but for the unexamined low nibble of families
5 and 9. -/
def Obligations.EncodeOfDecode : Prop :=
  ∀ (w : Word) (i : Instr), decodeWord w = .ok i → encode i = canonicalWord w

/-- R94: a word selects the row it matches, and no word matches two rows. -/
def Obligations.EveryWordOneRow : Prop :=
  ∀ w : Word,
    (∀ i, decodeWord w = .ok i → w &&& i.mask = i.pattern)
    ∧ (∀ j : Instr, w &&& j.mask = j.pattern → ∃ i, decodeWord w = .ok i ∧ i.mask = j.mask ∧ i.pattern = j.pattern)

/-- R99: exactly the listed words are no instruction. -/
def Obligations.IllegalWordsRejected : Prop :=
  ∀ w : Word, (∃ i, decodeWord w = .ok i) ↔ illegalWord w = false

/-! Invariants of every step. -/

/-- R29, R64: no step writes outside the address space; the memory keeps its canonical form, which is the model's own (log
entry 12). -/
def Obligations.StepKeepsMemoryForm : Prop := ∀ s t : State, MemoryInv s → step s = .next t → MemoryInv t

/-- R25 (an inference of the spec, "the largest value any rule can give it"): `pc` never exceeds `0x10FE` and never overflows;
return addresses never exceed `0x1000`. -/
def Obligations.StepKeepsPcBound : Prop := ∀ s t : State, PcInv s → step s = .next t → PcInv t

/-- R126, R233 (the spec's own decision D11): while `mode` is AwaitingKey(x), `pc` stands on the waiting `Fx0A` and no
fault is recorded. That `load_rom` is then refused is the model's form of R294 (log entry 10). -/
def Obligations.StepKeepsWait : Prop := ∀ s t : State, WaitInv s → step s = .next t → WaitInv t

/-- R34, R258, R259 (R259 is an inference of the spec): every recorded fault is true of the state it preserves, in its cause
and in each recorded field. That the launch window is then closed is the model's form of R294 (log entry 10). -/
def Obligations.StepKeepsFaultRecord : Prop := ∀ s t : State, FaultInv s → step s = .next t → FaultInv t

/-- The four invariants hold after reset (R42). -/
def Obligations.InvariantsAtReset : Prop :=
  MemoryInv State.reset ∧ PcInv State.reset ∧ WaitInv State.reset ∧ FaultInv State.reset

/-! Whole-machine rules. -/

/-- R20, R22: an instruction changes only the pieces of state, and only the registers, that the spec says it writes. -/
def Obligations.InstructionFrames : Prop :=
  ∀ (i : Instr) (s t : State), exec i s = .next t →
    OnlyChanges (mayWrite i) s t ∧ KeepsRegs (writtenRegs i) s t

/-- R258, R259 (R259 is an inference of the spec): a handler that records a fault has changed nothing else. -/
def Obligations.FaultsArePrecise : Prop :=
  ∀ (i : Instr) (s t : State), s.fault = none → exec i s = .next t → t.fault ≠ none → t = { s with fault := t.fault }

/-- R34: a fault record holds the address of the faulting instruction and, where an opcode was read, the word fetched. -/
def Obligations.FaultRecordsInstruction : Prop :=
  ∀ (s t : State) (f : Fault), s.fault = none → step s = .next t → t.fault = some f →
    f.pc = s.pc ∧ (f.opcode = none ↔ s.pc.toNat > 0xFFE)
      ∧ ∀ w, f.opcode = some w → w = s.fetchWord ∧ t.pc = s.pc + 2

/-- R126 (the spec's own decision D11): a completed instruction leaves `mode` at AwaitingKey(x) if it is `Fx0A` and found no
key, at Running otherwise; a faulting one leaves it as it was. -/
def Obligations.ModeAfterInstruction : Prop :=
  ∀ (i : Instr) (s t : State), s.fault = none → exec i s = .next t →
    (t.fault ≠ none → t.mode = s.mode)
    ∧ (∀ x, i = .ldVxK x → (∀ k : Fin 16, s.key[k.val] = false) → t.mode = .awaitingKey x)
    ∧ (t.fault = none → (∀ x, i = .ldVxK x → ∃ k : Fin 16, s.key[k.val] = true) → t.mode = .running)

/-- R35 (the spec's own decision D11): `mode` never influences anything else: with another `mode` the step does the same to
all other state. -/
def Obligations.ModeNeverRead : Prop :=
  ∀ (s : State) (m : Mode),
    (∀ t, step s = .next t → ∃ m', step { s with mode := m } = .next { t with mode := m' })
    ∧ (∀ r, step s = .refused r → step { s with mode := m } = .refused r)

/-- R128 (an inference of the spec from R120 to R127): the random byte is consumed by `Cxkk` alone, the keypad by `Ex9E`,
`ExA1`, `Fx0A` alone, `DT` by `Fx07` alone, and `ST` by no instruction. -/
def Obligations.InputsReadOnlyWhereNamed : Prop :=
  ∀ (i : Instr) (s t : State), exec i s = .next t →
    ((∀ x kk, i ≠ .rnd x kk) → ∀ b, exec i (s.latchRnd b) = .next (t.latchRnd b))
    ∧ ((∀ x, i ≠ .skp x ∧ i ≠ .sknp x ∧ i ≠ .ldVxK x) → ∀ key, exec i { s with key := key } = .next { t with key := key })
    ∧ ((∀ x, i ≠ .ldVxDt x ∧ i ≠ .ldDtVx x) → ∀ b, exec i { s with dt := b } = .next { t with dt := b })
    ∧ ((∀ x, i ≠ .ldStVx x) → ∀ b, exec i { s with st := b } = .next { t with st := b })

/-- R32, R125, R262 (R262 is an inference of the spec): between two events the keypad changes only by the host, and a cycle
changes the timers only through `Fx15` and `Fx18`. -/
def Obligations.KeysAndTimersChange : Prop :=
  ∀ s t : State, step s = .next t → nextEvent s ≠ .reset →
    ((∀ k b, nextEvent s ≠ .setKey k b) → t.key = s.key)
    ∧ (nextEvent s ≠ .tick → (∀ x, decodeWord s.fetchWord ≠ .ok (.ldDtVx x)) → t.dt = s.dt)
    ∧ (nextEvent s ≠ .tick → (∀ x, decodeWord s.fetchWord ≠ .ok (.ldStVx x)) → t.st = s.st)

/-! Load and arithmetic-logic instructions. Each completes on every state and every operand. -/

/-- R160, R162. -/
def Obligations.LoadForms : Prop :=
  ∀ (x y : RegNum) (kk : Byte) (s : State),
    (decodeWord (formXKK 0x6 x kk) = .ok (.ldImm x kk) ∧ WritesReg (.ldImm x kk) x kk s)
    ∧ (decodeWord (formXYN 0x8 x y 0x0) = .ok (.ldReg x y) ∧ WritesReg (.ldReg x y) x (s.reg y) s)

/-- R161: no flag, also on overflow. -/
def Obligations.AddImmediate : Prop :=
  ∀ (x : RegNum) (kk : Byte) (s : State), decodeWord (formXKK 0x7 x kk) = .ok (.addImm x kk)
    ∧ WritesReg (.addImm x kk) x (BitVec.ofNat 8 (((s.reg x).toNat + kk.toNat) % 256)) s

/-- R163, R164, R165: bit by bit, `VF` not written as a flag. -/
def Obligations.BitwiseForms : Prop :=
  ∀ (x y : RegNum) (s : State),
    (decodeWord (formXYN 0x8 x y 0x1) = .ok (.orReg x y)
      ∧ ∃ b : Byte, (∀ k, b.getLsbD k = ((s.reg x).getLsbD k || (s.reg y).getLsbD k)) ∧ WritesReg (.orReg x y) x b s)
    ∧ (decodeWord (formXYN 0x8 x y 0x2) = .ok (.andReg x y)
      ∧ ∃ b : Byte, (∀ k, b.getLsbD k = ((s.reg x).getLsbD k && (s.reg y).getLsbD k)) ∧ WritesReg (.andReg x y) x b s)
    ∧ (decodeWord (formXYN 0x8 x y 0x3) = .ok (.xorReg x y)
      ∧ ∃ b : Byte, (∀ k, b.getLsbD k = ((s.reg x).getLsbD k ^^ (s.reg y).getLsbD k)) ∧ WritesReg (.xorReg x y) x b s)

/-- R166: the sum modulo 256, the carry in `VF`, written last. -/
def Obligations.AddRegisters : Prop :=
  ∀ (x y : RegNum) (s : State), decodeWord (formXYN 0x8 x y 0x4) = .ok (.addReg x y)
    ∧ WritesRegFlag (.addReg x y) x (BitVec.ofNat 8 (((s.reg x).toNat + (s.reg y).toNat) % 256))
        (if (s.reg x).toNat + (s.reg y).toNat > 255 then 1 else 0) s

/-- R167, R169: the difference modulo 256, the STRICT comparison in `VF`, written last. -/
def Obligations.Subtractions : Prop :=
  ∀ (x y : RegNum) (s : State),
    (decodeWord (formXYN 0x8 x y 0x5) = .ok (.sub x y)
      ∧ WritesRegFlag (.sub x y) x (BitVec.ofNat 8 (((s.reg x).toNat + 256 - (s.reg y).toNat) % 256))
          (if (s.reg x).toNat > (s.reg y).toNat then 1 else 0) s)
    ∧ (decodeWord (formXYN 0x8 x y 0x7) = .ok (.subn x y)
      ∧ WritesRegFlag (.subn x y) x (BitVec.ofNat 8 (((s.reg y).toNat + 256 - (s.reg x).toNat) % 256))
          (if (s.reg y).toNat > (s.reg x).toNat then 1 else 0) s)

/-- R168, R170: `V[x]` by one position whatever `y` is, the bit shifted out in `VF`, written last. -/
def Obligations.Shifts : Prop :=
  ∀ (x y : RegNum) (s : State),
    (decodeWord (formXYN 0x8 x y 0x6) = .ok (.shr x y)
      ∧ WritesRegFlag (.shr x y) x (BitVec.ofNat 8 ((s.reg x).toNat / 2)) (BitVec.ofNat 8 ((s.reg x).toNat % 2)) s)
    ∧ (decodeWord (formXYN 0x8 x y 0xE) = .ok (.shl x y)
      ∧ WritesRegFlag (.shl x y) x (BitVec.ofNat 8 (2 * (s.reg x).toNat % 256))
          (BitVec.ofNat 8 ((s.reg x).toNat / 128)) s)

/-- R171, R40: the byte the cycle carries, any byte, masked by `kk`. Where the byte stands is the model's choice (log entry
5; the spec's own decision D13). -/
def Obligations.RandomMasked : Prop :=
  ∀ (x : RegNum) (kk b : Byte) (s : State), decodeWord (formXKK 0xC x kk) = .ok (.rnd x kk)
    ∧ (s.host.rnd = b → WritesReg (.rnd x kk) x (b &&& kk) s)
    ∧ (∀ t, exec (.rnd x kk) s = .next t → t.reg x &&& ~~~kk = 0)

/-- R173 (an inference of the spec from R23 and R160 to R171): what `VF` holds after each instruction that names it as `x`. -/
def Obligations.FlagRegisterAsDestination : Prop :=
  ∀ (y : RegNum) (kk : Byte) (s : State),
    (∃ t, exec (.ldImm 15 kk) s = .next t ∧ t.reg 15 = kk)
    ∧ (∃ t, exec (.addImm 15 kk) s = .next t ∧ (t.reg 15).toNat = ((s.reg 15).toNat + kk.toNat) % 256)
    ∧ (∃ t, exec (.ldReg 15 y) s = .next t ∧ t.reg 15 = s.reg y)
    ∧ (∃ t, exec (.orReg 15 y) s = .next t ∧ t.reg 15 = s.reg 15 ||| s.reg y)
    ∧ (∃ t, exec (.andReg 15 y) s = .next t ∧ t.reg 15 = s.reg 15 &&& s.reg y)
    ∧ (∃ t, exec (.xorReg 15 y) s = .next t ∧ t.reg 15 = s.reg 15 ^^^ s.reg y)
    ∧ (∃ t, exec (.addReg 15 y) s = .next t ∧ t.reg 15 = if (s.reg 15).toNat + (s.reg y).toNat > 255 then 1 else 0)
    ∧ (∃ t, exec (.sub 15 y) s = .next t ∧ t.reg 15 = if (s.reg 15).toNat > (s.reg y).toNat then 1 else 0)
    ∧ (∃ t, exec (.shr 15 y) s = .next t ∧ t.reg 15 = if (s.reg 15).getLsbD 0 then 1 else 0)
    ∧ (∃ t, exec (.subn 15 y) s = .next t ∧ t.reg 15 = if (s.reg y).toNat > (s.reg 15).toNat then 1 else 0)
    ∧ (∃ t, exec (.shl 15 y) s = .next t ∧ t.reg 15 = if (s.reg 15).getLsbD 7 then 1 else 0)
    ∧ (∃ t, exec (.rnd 15 kk) s = .next t ∧ t.reg 15 = s.host.rnd &&& kk)

/-! Index register and memory. -/

/-- R190, R191, R192; the wrap of R191 at 65536 is the spec's own decision D14. -/
def Obligations.IndexForms : Prop :=
  ∀ (nnn : Addr) (x : RegNum) (s : State),
    (decodeWord (formNNN 0xA nnn) = .ok (.ldI nnn) ∧ WritesIndex (.ldI nnn) nnn.toNat s)
    ∧ (decodeWord (formXKK 0xF x 0x1E) = .ok (.addI x)
      ∧ WritesIndex (.addI x) ((s.i.toNat + (s.reg x).toNat) % 65536) s)
    ∧ (decodeWord (formXKK 0xF x 0x29) = .ok (.ldF x) ∧ WritesIndex (.ldF x) (5 * (s.reg x).toNat) s)

/-- R193: three decimal digits at `I`, `I + 1`, `I + 2`, the most significant first. -/
def Obligations.StoreBcd : Prop :=
  ∀ (x : RegNum) (s : State), decodeWord (formXKK 0xF x 0x33) = .ok (.ldB x)
    ∧ (s.i.toNat + 2 ≤ 0xFFF → ∃ t, exec (.ldB x) s = .next t
        ∧ (Memory.wf s.mem → (Memory.read t.mem s.i.toNat).toNat = (s.reg x).toNat / 100
          ∧ (Memory.read t.mem (s.i.toNat + 1)).toNat = (s.reg x).toNat / 10 % 10
          ∧ (Memory.read t.mem (s.i.toNat + 2)).toNat = (s.reg x).toNat % 10)
        ∧ KeepsMemoryOutside s.i.toNat 3 s t ∧ OnlyChanges [.mem, .mode] s t ∧ t.mode = .running)
    ∧ (s.i.toNat + 2 > 0xFFF → Faults (.ldB x) (.memoryRange (s.pc - 2) (formXKK 0xF x 0x33) s.i 3) s)

/-- R194: `V0..Vx` inclusive to `I` up, `I` unchanged (the spec's own decision D15). -/
def Obligations.StoreRegisters : Prop :=
  ∀ (x : RegNum) (s : State), decodeWord (formXKK 0xF x 0x55) = .ok (.storeRegs x)
    ∧ (s.i.toNat + x.toNat ≤ 0xFFF → ∃ t, exec (.storeRegs x) s = .next t
        ∧ (Memory.wf s.mem → ∀ k : RegNum, k.toNat ≤ x.toNat → Memory.read t.mem (s.i.toNat + k.toNat) = s.reg k)
        ∧ KeepsMemoryOutside s.i.toNat (x.toNat + 1) s t ∧ OnlyChanges [.mem, .mode] s t ∧ t.mode = .running)
    ∧ (s.i.toNat + x.toNat > 0xFFF →
        Faults (.storeRegs x) (.memoryRange (s.pc - 2) (formXKK 0xF x 0x55) s.i (x.toNat + 1)) s)

/-- R195: `V0..Vx` inclusive from `I` up, `I` unchanged (the spec's own decision D15). -/
def Obligations.LoadRegisters : Prop :=
  ∀ (x : RegNum) (s : State), decodeWord (formXKK 0xF x 0x65) = .ok (.loadRegs x)
    ∧ (s.i.toNat + x.toNat ≤ 0xFFF → ∃ t, exec (.loadRegs x) s = .next t
        ∧ (∀ k : RegNum, k.toNat ≤ x.toNat → t.reg k = Memory.read s.mem (s.i.toNat + k.toNat))
        ∧ (∀ k : RegNum, x.toNat < k.toNat → t.reg k = s.reg k)
        ∧ OnlyChanges [.regs, .mode] s t ∧ t.mode = .running)
    ∧ (s.i.toNat + x.toNat > 0xFFF →
        Faults (.loadRegs x) (.memoryRange (s.pc - 2) (formXKK 0xF x 0x65) s.i (x.toNat + 1)) s)

/-- R256: an access through `I` whose range passes `0xFFF` faults with nothing changed; a MemoryRangeFault is recorded by no
other instruction, and only for such a range. -/
def Obligations.MemoryRangeFaults : Prop :=
  ∀ (x y : RegNum) (n : BitVec 4) (s : State),
    (s.i.toNat + 3 - 1 > 0xFFF → Faults (.ldB x) (.memoryRange (s.pc - 2) (encode (.ldB x)) s.i 3) s)
    ∧ (s.i.toNat + (x.toNat + 1) - 1 > 0xFFF →
        Faults (.storeRegs x) (.memoryRange (s.pc - 2) (encode (.storeRegs x)) s.i (x.toNat + 1)) s
        ∧ Faults (.loadRegs x) (.memoryRange (s.pc - 2) (encode (.loadRegs x)) s.i (x.toNat + 1)) s)
    ∧ (1 ≤ n.toNat → s.i.toNat + n.toNat - 1 > 0xFFF →
        Faults (.drw x y n) (.memoryRange (s.pc - 2) (encode (.drw x y n)) s.i n.toNat) s)
    ∧ (∀ i t pc w a len, s.fault = none → exec i s = .next t → t.fault = some (.memoryRange pc w a len) →
        ((∃ x y n, i = .drw x y n ∧ 1 ≤ n.toNat) ∨ (∃ x, i = .ldB x ∨ i = .storeRegs x ∨ i = .loadRegs x))
          ∧ pc = s.pc - 2 ∧ w = encode i ∧ a = s.i ∧ len = accessLen i ∧ s.i.toNat + len - 1 > 0xFFF)

/-! Display. -/

/-- R211: every pixel off, nothing else changed. -/
def Obligations.ClearDisplay : Prop :=
  decodeWord 0x00E0 = .ok .cls
    ∧ ∀ s : State, ∃ t, exec .cls s = .next t ∧ (∀ r c, t.pixel r c = false) ∧ OnlyChanges [.fb, .mode] s t
      ∧ t.mode = .running

/-- R212: every grid pixel under a set sprite bit is toggled, no other; `VF` is the collision of the whole sprite, written
also when nothing is drawn; the parts past the right and bottom edges are clipped. Clipping, the empty sprite and the width
of a row are the spec's own decisions D16, D18, D17. -/
def Obligations.DrawSprite : Prop :=
  ∀ (x y : RegNum) (n : BitVec 4) (s : State), decodeWord (formXYN 0xD x y n) = .ok (.drw x y n)
    ∧ (SpriteInRange s n → ∃ t, exec (.drw x y n) s = .next t
        ∧ (∀ r c, r < 32 → c < 64 → t.pixel r c = (s.pixel r c ^^ spriteBit s x y n r c))
        ∧ ((∃ r c, r < 32 ∧ c < 64 ∧ spriteBit s x y n r c = true ∧ s.pixel r c = true) → t.reg 15 = 1)
        ∧ (¬(∃ r c, r < 32 ∧ c < 64 ∧ spriteBit s x y n r c = true ∧ s.pixel r c = true) → t.reg 15 = 0)
        ∧ KeepsRegs [15] s t ∧ OnlyChanges [.regs, .fb, .mode] s t ∧ t.mode = .running)
    ∧ (¬SpriteInRange s n → Faults (.drw x y n) (.memoryRange (s.pc - 2) (formXYN 0xD x y n) s.i n.toNat) s)

/-- R213 (an inference of the spec from R212): a second draw of the same sprite at the same place restores every pixel, and
its `VF` is 1 if and only if the first draw turned some pixel on. -/
def Obligations.DrawTwiceRestores : Prop :=
  ∀ (x y : RegNum) (n : BitVec 4) (s t u : State), SpriteInRange s n → exec (.drw x y n) s = .next t →
    u.fb = t.fb → u.i = s.i → (∀ a, Memory.read u.mem a = Memory.read s.mem a) →
    u.reg x &&& 63 = s.reg x &&& 63 → u.reg y &&& 31 = s.reg y &&& 31 →
    ∃ w, exec (.drw x y n) u = .next w ∧ (∀ r c, r < 32 → c < 64 → w.pixel r c = s.pixel r c)
      ∧ (w.reg 15 = 1 ↔ ∃ r c, r < 32 ∧ c < 64 ∧ s.pixel r c = false ∧ t.pixel r c = true)

/-! Control transfer. -/

/-- R142, R148: the target replaces the pre-advanced `pc`; the sum of `Bnnn` is not masked. -/
def Obligations.Jumps : Prop :=
  ∀ (nnn : Addr) (s : State),
    (decodeWord (formNNN 0x1 nnn) = .ok (.jp nnn) ∧ GoesTo (.jp nnn) (BitVec.ofNat 16 nnn.toNat) s)
    ∧ (decodeWord (formNNN 0xB nnn) = .ok (.jpV0 nnn)
      ∧ GoesTo (.jpV0 nnn) (BitVec.ofNat 16 (nnn.toNat + (s.reg 0).toNat)) s
      ∧ nnn.toNat + (s.reg 0).toNat ≤ 0x10FE)

/-- R143: the address after the call is pushed; with 16 live entries the call faults and pushes nothing. -/
def Obligations.CallPushes : Prop :=
  ∀ (nnn : Addr) (s : State), decodeWord (formNNN 0x2 nnn) = .ok (.call nnn)
    ∧ ((h : s.sp.val < 16) → ∃ t, exec (.call nnn) s = .next t ∧ t.stack[s.sp.val] = s.pc
        ∧ (∀ k, (hk : k < 16) → k ≠ s.sp.val → t.stack[k] = s.stack[k]) ∧ t.sp.val = s.sp.val + 1
        ∧ t.pc.toNat = nnn.toNat ∧ OnlyChanges [.pc, .sp, .stack, .mode] s t ∧ t.mode = .running)
    ∧ (s.sp.val = 16 → Faults (.call nnn) (.stackOverflow (s.pc - 2) (formNNN 0x2 nnn)) s)

/-- R141: the newest return address is popped and keeps its place in the store; with no live entry the return faults. -/
def Obligations.ReturnPops : Prop :=
  ∀ s : State, decodeWord 0x00EE = .ok .ret
    ∧ (∀ k, (h : k < 16) → s.sp.val = k + 1 → ∃ t, exec .ret s = .next t ∧ t.sp.val = k ∧ t.pc = s.stack[k]
        ∧ OnlyChanges [.pc, .sp, .mode] s t ∧ t.mode = .running)
    ∧ (s.sp.val = 0 → Faults .ret (.stackUnderflow (s.pc - 2) 0x00EE) s)

/-- R26, R141, R143: a call and then a return, at whatever `pc` the subroutine ends, continues after the call, and `sp` is
as before. -/
def Obligations.CallThenReturn : Prop :=
  ∀ (nnn : Addr) (s t : State) (pc : Word), s.sp.val < 16 → exec (.call nnn) s = .next t →
    ∃ u, exec .ret { t with pc := pc } = .next u ∧ u.pc = s.pc ∧ u.sp = s.sp

/-- R144, R145, R146, R147: a taken skip adds exactly 2 to the pre-advanced `pc`. -/
def Obligations.Skips : Prop :=
  ∀ (x y : RegNum) (kk : Byte) (n : BitVec 4) (s : State),
    (decodeWord (formXKK 0x3 x kk) = .ok (.seImm x kk)
      ∧ GoesTo (.seImm x kk) (if s.reg x = kk then s.pc + 2 else s.pc) s)
    ∧ (decodeWord (formXKK 0x4 x kk) = .ok (.sneImm x kk)
      ∧ GoesTo (.sneImm x kk) (if s.reg x = kk then s.pc else s.pc + 2) s)
    ∧ (decodeWord (formXYN 0x5 x y n) = .ok (.seReg x y)
      ∧ GoesTo (.seReg x y) (if s.reg x = s.reg y then s.pc + 2 else s.pc) s)
    ∧ (decodeWord (formXYN 0x9 x y n) = .ok (.sneReg x y)
      ∧ GoesTo (.sneReg x y) (if s.reg x = s.reg y then s.pc else s.pc + 2) s)

/-! Keypad and timers. -/

/-- R230, R231: the key numbered `V[x]` is tested; a number above 15 faults, it is not masked (the spec's own decision D10). -/
def Obligations.KeySkips : Prop :=
  ∀ (x : RegNum) (s : State),
    decodeWord (formXKK 0xE x 0x9E) = .ok (.skp x) ∧ decodeWord (formXKK 0xE x 0xA1) = .ok (.sknp x)
    ∧ (∀ k : Fin 16, (s.reg x).toNat = k.val →
        GoesTo (.skp x) (if s.key[k.val] = true then s.pc + 2 else s.pc) s
        ∧ GoesTo (.sknp x) (if s.key[k.val] = true then s.pc else s.pc + 2) s)
    ∧ ((s.reg x).toNat > 15 →
        Faults (.skp x) (.keyIndex (s.pc - 2) (formXKK 0xE x 0x9E) (s.reg x)) s
        ∧ Faults (.sknp x) (.keyIndex (s.pc - 2) (formXKK 0xE x 0xA1) (s.reg x)) s)

/-- R232, R234, R235: the timers are read and written whole, each alone. -/
def Obligations.TimerForms : Prop :=
  ∀ (x : RegNum) (s : State),
    (decodeWord (formXKK 0xF x 0x07) = .ok (.ldVxDt x) ∧ WritesReg (.ldVxDt x) x s.dt s)
    ∧ (decodeWord (formXKK 0xF x 0x15) = .ok (.ldDtVx x) ∧ ∃ t, exec (.ldDtVx x) s = .next t ∧ t.dt = s.reg x
      ∧ OnlyChanges [.delay, .mode] s t ∧ t.mode = .running)
    ∧ (decodeWord (formXKK 0xF x 0x18) = .ok (.ldStVx x) ∧ ∃ t, exec (.ldStVx x) s = .next t ∧ t.st = s.reg x
      ∧ t.toneActive = decide (s.reg x ≠ 0) ∧ OnlyChanges [.sound, .mode] s t ∧ t.mode = .running)

/-- R233: with some key pressed, the number of a pressed key (any of them: the spec leaves `keyPick` open, D12); with none,
the same instruction again and `mode` AwaitingKey(x). -/
def Obligations.WaitForKey : Prop :=
  ∀ (x : RegNum) (s : State), decodeWord (formXKK 0xF x 0x0A) = .ok (.ldVxK x)
    ∧ ((∃ k : Fin 16, s.key[k.val] = true) →
        ∃ k : Fin 16, s.key[k.val] = true ∧ WritesReg (.ldVxK x) x (BitVec.ofNat 8 k.val) s)
    ∧ ((∀ k : Fin 16, s.key[k.val] = false) → ∃ t, exec (.ldVxK x) s = .next t ∧ t.pc = s.pc - 2
        ∧ t.mode = .awaitingKey x ∧ OnlyChanges [.pc, .mode] s t)
end

