-- ==== Sys2Proof/Laws/Decode.lean ====
section
/-! SUPPORT. Words as four nibbles, and the fields of each form. -/

namespace Sys2Proof

/-- Every word is four nibbles. -/
theorem word_eq_nibbles (w : Word) : w = formXYN (fieldOp w) (fieldX w) (fieldY w) (fieldN w) := by
  apply BitVec.eq_of_getLsbD_eq
  intro i hi
  simp only [formXYN, fieldOp, fieldX, fieldY, fieldN, BitVec.getLsbD_append, BitVec.getLsbD_extractLsb']
  rcases lt_or_ge i 4 with h | h
  · simp [h, show i < 8 by omega, show i < 12 by omega]
  · rcases lt_or_ge i 8 with h' | h'
    · simp [h', show ¬ i < 4 by omega, show i < 12 by omega, show i - 4 < 4 by omega, show 4 + (i - 4) = i by omega]
    · rcases lt_or_ge i 12 with h'' | h''
      · simp [h'', show ¬ i < 8 by omega, show i - 8 < 4 by omega, show 8 + (i - 8) = i by omega]
      · simp [show ¬ i < 12 by omega, show i - 12 < 4 by omega, show 12 + (i - 12) = i by omega]

variable (op x y n : BitVec 4) (kk : Byte) (nnn : Addr)

/-- A byte is two nibbles, so the XKK form is an XYN form. -/
theorem formXKK_nibbles : formXKK op x (y ++ n) = formXYN op x y n := rfl

/-- An address is three nibbles, so the NNN form is an XYN form. -/
theorem formNNN_nibbles : formNNN op (x ++ (y ++ n : BitVec 8)) = formXYN op x y n := rfl

@[simp] theorem fieldOp_formXYN : fieldOp (formXYN op x y n) = op := by
  apply BitVec.eq_of_getLsbD_eq; intro i hi
  simp only [fieldOp, formXYN, BitVec.getLsbD_extractLsb', BitVec.getLsbD_append]
  simp [hi, show ¬ 12 + i < 12 by omega]

@[simp] theorem fieldX_formXYN : fieldX (formXYN op x y n) = x := by
  apply BitVec.eq_of_getLsbD_eq; intro i hi
  simp only [fieldX, formXYN, BitVec.getLsbD_extractLsb', BitVec.getLsbD_append]
  simp [hi, show 8 + i < 12 by omega, show ¬ 8 + i < 8 by omega]

@[simp] theorem fieldY_formXYN : fieldY (formXYN op x y n) = y := by
  apply BitVec.eq_of_getLsbD_eq; intro i hi
  simp only [fieldY, formXYN, BitVec.getLsbD_extractLsb', BitVec.getLsbD_append]
  simp [hi, show 4 + i < 12 by omega, show 4 + i < 8 by omega, show ¬ 4 + i < 4 by omega]

@[simp] theorem fieldN_formXYN : fieldN (formXYN op x y n) = n := by
  apply BitVec.eq_of_getLsbD_eq; intro i hi
  simp only [fieldN, formXYN, BitVec.getLsbD_extractLsb', BitVec.getLsbD_append]
  simp [hi, show i < 12 by omega, show i < 8 by omega]

@[simp] theorem fieldKK_formXYN : fieldKK (formXYN op x y n) = y ++ n := by
  apply BitVec.eq_of_getLsbD_eq; intro i hi
  simp only [fieldKK, formXYN, BitVec.getLsbD_extractLsb', BitVec.getLsbD_append]
  simp [hi, show i < 12 by omega]

@[simp] theorem fieldOp_formXKK : fieldOp (formXKK op x kk) = op := by
  apply BitVec.eq_of_getLsbD_eq; intro i hi
  simp only [fieldOp, formXKK, BitVec.getLsbD_extractLsb', BitVec.getLsbD_append]
  simp [hi, show ¬ 12 + i < 12 by omega]

@[simp] theorem fieldX_formXKK : fieldX (formXKK op x kk) = x := by
  apply BitVec.eq_of_getLsbD_eq; intro i hi
  simp only [fieldX, formXKK, BitVec.getLsbD_extractLsb', BitVec.getLsbD_append]
  simp [hi, show 8 + i < 12 by omega, show ¬ 8 + i < 8 by omega]

@[simp] theorem fieldKK_formXKK : fieldKK (formXKK op x kk) = kk := by
  apply BitVec.eq_of_getLsbD_eq; intro i hi
  simp only [fieldKK, formXKK, BitVec.getLsbD_extractLsb', BitVec.getLsbD_append]
  simp [hi, show i < 12 by omega]

@[simp] theorem fieldOp_formNNN : fieldOp (formNNN op nnn) = op := by
  apply BitVec.eq_of_getLsbD_eq; intro i hi
  simp only [fieldOp, formNNN, BitVec.getLsbD_extractLsb', BitVec.getLsbD_append]
  simp [hi, show ¬ 12 + i < 12 by omega]

@[simp] theorem fieldNNN_formNNN : fieldNNN (formNNN op nnn) = nnn := by
  apply BitVec.eq_of_getLsbD_eq; intro i hi
  simp only [fieldNNN, formNNN, BitVec.getLsbD_extractLsb', BitVec.getLsbD_append]
  simp [hi]

/-- The two bytes of a word, put together again, are the word (20_memory.md R60). -/
theorem wordOfBytes_bytes (w : Word) : wordOfBytes (w.extractLsb' 8 8) (w.extractLsb' 0 8) = w := by
  apply BitVec.eq_of_getLsbD_eq; intro i hi
  simp only [wordOfBytes, BitVec.getLsbD_append, BitVec.getLsbD_extractLsb']
  rcases lt_or_ge i 8 with h | h
  · simp [h]
  · simp [show ¬ i < 8 by omega, show i - 8 < 8 by omega, show 8 + (i - 8) = i by omega]

end Sys2Proof
end

