-- ==== Sys2Proof/Laws/Display.lean ====
section
/-! SUPPORT. Drawing, pixel by pixel: the row operations of Machine/Display.lean are the pixel loop of spec/44_display.md R212. -/

namespace Sys2Proof.Machine

/-- A sprite byte at column `x0`, as a pixel of the row: sprite column `col` is bit `7 - col`, clipped past column 63. -/
theorem spriteRow_pixel (b : Byte) (x0 c : Nat) (hc : c < 64) :
    (spriteRow b x0).getMsbD c = (decide (x0 ≤ c ∧ c < x0 + 8) && b.getLsbD (7 - (c - x0))) := by
  unfold spriteRow
  rw [BitVec.getMsbD_ushiftRight]
  by_cases h0 : c < x0
  · simp [hc, h0, show ¬(x0 ≤ c) by omega]
  · rw [BitVec.getMsbD_append]
    by_cases h8 : c < x0 + 8
    · simp [hc, h0, h8, show c - x0 < 8 by omega, show x0 ≤ c by omega, BitVec.getMsbD]
    · simp [hc, h0, h8, show ¬(c - x0 < 8) by omega]

theorem Framebuffer.pixel_toggleRow (fb : Framebuffer) (r0 : Nat) (t : BitVec 64) (r c : Nat) (hr : r < 32) :
    Framebuffer.pixel (Framebuffer.toggleRow fb r0 t) r c
      = (Framebuffer.pixel fb r c ^^ (decide (r = r0) && t.getMsbD c)) := by
  unfold Framebuffer.toggleRow
  by_cases h0 : r0 < 32
  · by_cases he : r0 = r
    · subst he; simp [Framebuffer.pixel, hr]
    · simp [Framebuffer.pixel, hr, h0, he, Ne.symm he]
  · simp [h0, show r ≠ r0 by omega]

/-- The pixels after a sprite is drawn: each is toggled once, where the sprite has a set bit. -/
theorem drawRows_pixel (fb : Framebuffer) (x0 r0 : Nat) (bs : List Byte) (r c : Nat) (hr : r < 32) (hc : c < 64) :
    Framebuffer.pixel (drawRows fb x0 r0 bs).1 r c
      = (Framebuffer.pixel fb r c ^^ (decide (r0 ≤ r ∧ r < r0 + bs.length)
          && (decide (x0 ≤ c ∧ c < x0 + 8) && (bs.getD (r - r0) 0).getLsbD (7 - (c - x0))))) := by
  induction bs generalizing fb r0 with
  | nil => simp [drawRows]
  | cons b bs ih =>
    simp only [drawRows, ih, Framebuffer.pixel_toggleRow fb r0 _ r c hr, spriteRow_pixel b x0 c hc, List.length_cons]
    by_cases he : r = r0
    · subst he
      simp
    · by_cases hin : r0 + 1 ≤ r ∧ r < r0 + 1 + bs.length
      · rw [show r - r0 = (r - (r0 + 1)) + 1 by omega, List.getD_cons_succ]
        simp [he, hin, show r0 ≤ r by omega, show r < r0 + (bs.length + 1) by omega]
      · rw [decide_eq_false hin, decide_eq_false (show ¬(r0 ≤ r ∧ r < r0 + (bs.length + 1)) by omega)]
        simp [he]

theorem Framebuffer.collides_iff (fb : Framebuffer) (r : Nat) (t : BitVec 64) :
    Framebuffer.collides fb r t = true ↔ r < 32 ∧ ∃ c, c < 64 ∧ Framebuffer.pixel fb r c = true ∧ t.getMsbD c = true := by
  unfold Framebuffer.collides
  by_cases hr : r < 32
  · simp only [hr, dif_pos, decide_eq_true_eq, true_and, Framebuffer.pixel]
    constructor
    · intro h
      by_contra hn
      push Not at hn
      refine h (BitVec.eq_of_getMsbD_eq fun c hc => ?_)
      rw [BitVec.getMsbD_and]
      have := hn c hc
      cases h1 : (fb[r]).getMsbD c <;> simp_all
    · rintro ⟨c, hc, h1, h2⟩ h0
      have := congrArg (fun w => BitVec.getMsbD w c) h0
      simp [h1, h2] at this
  · simp [hr]

/-- The collision flag of a sprite: some set bit inside the grid meets a pixel that was on before the draw. -/
theorem drawRows_collision (fb : Framebuffer) (x0 r0 : Nat) (bs : List Byte) :
    (drawRows fb x0 r0 bs).2 = true ↔ ∃ r c, r < 32 ∧ c < 64 ∧ (r0 ≤ r ∧ r < r0 + bs.length) ∧ (x0 ≤ c ∧ c < x0 + 8)
      ∧ (bs.getD (r - r0) 0).getLsbD (7 - (c - x0)) = true ∧ Framebuffer.pixel fb r c = true := by
  induction bs generalizing fb r0 with
  | nil => simp [drawRows]
  | cons b bs ih =>
    simp only [drawRows, Bool.or_eq_true, ih, Framebuffer.collides_iff, List.length_cons]
    constructor
    · rintro (⟨hr, c, hc, hp, ht⟩ | ⟨r, c, hr, hc, hrow, hcol, hb, hp⟩)
      · rw [spriteRow_pixel b x0 c hc, Bool.and_eq_true, decide_eq_true_eq] at ht
        exact ⟨r0, c, hr, hc, ⟨le_rfl, by omega⟩, ht.1, by simpa using ht.2, hp⟩
      · refine ⟨r, c, hr, hc, ⟨by omega, by omega⟩, hcol, ?_, ?_⟩
        · rw [show r - r0 = (r - (r0 + 1)) + 1 by omega, List.getD_cons_succ]; exact hb
        · rw [Framebuffer.pixel_toggleRow fb r0 _ r c hr] at hp
          simpa [show r ≠ r0 by omega] using hp
    · rintro ⟨r, c, hr, hc, hrow, hcol, hb, hp⟩
      by_cases he : r = r0
      · subst he
        refine .inl ⟨hr, c, hc, hp, ?_⟩
        rw [spriteRow_pixel b x0 c hc]
        simpa [hcol] using hb
      · refine .inr ⟨r, c, hr, hc, ⟨by omega, by omega⟩, hcol, ?_, ?_⟩
        · rwa [show r - r0 = (r - (r0 + 1)) + 1 by omega, List.getD_cons_succ] at hb
        · rw [Framebuffer.pixel_toggleRow fb r0 _ r c hr]
          simpa [he] using hp

end Sys2Proof.Machine
end

