-- ==== Sys2Proof/Laws/Memory.lean ====
section
/-! SUPPORT. Memory: a read after a write, and that every operation keeps the canonical form. -/

namespace Sys2Proof.Machine

theorem Memory.read_cons (m : Memory) (a : Nat) (b : Byte) (a' : Nat) (h : a' ≠ a) :
    Memory.read (Memory.cons a b m) a' = Memory.read m a' := by
  unfold Memory.cons
  split
  · rfl
  · simp [Memory.read, Ne.symm h]

/-- A write leaves every other address alone, in every memory. -/
theorem Memory.read_write_of_ne (m : Memory) (a : Nat) (b : Byte) (a' : Nat) (h : a' ≠ a) :
    Memory.read (Memory.write m a b) a' = Memory.read m a' := by
  induction m with
  | nil => exact Memory.read_cons [] a b a' h
  | cons c m ih =>
    unfold Memory.write
    split
    · exact Memory.read_cons _ _ _ _ h
    · split
      · next hc => rw [Memory.read_cons _ _ _ _ h]; simp [Memory.read, ← hc, Ne.symm h]
      · simp only [Memory.read, ih]

/-- An address below every listed one reads as its reset contents. -/
theorem Memory.read_of_lt (m : Memory) (a : Nat) (h : ∀ c ∈ m, a < c.1) : Memory.read m a = resetByte a := by
  induction m with
  | nil => rfl
  | cons c m ih =>
    have hc := h c (by simp)
    rw [Memory.read, if_neg (by omega), ih fun d hd => h d (by simp [hd])]

theorem Memory.read_cons_self (m : Memory) (a : Nat) (b : Byte) (h : ∀ c ∈ m, a < c.1) :
    Memory.read (Memory.cons a b m) a = b := by
  unfold Memory.cons
  split
  · next hb => rw [Memory.read_of_lt m a h, hb]
  · simp [Memory.read]

/-- A read after a write to the same address gives the byte written. -/
theorem Memory.read_write_self (m : Memory) (a : Nat) (b : Byte) (h : Memory.wf m) :
    Memory.read (Memory.write m a b) a = b := by
  obtain ⟨hs, -⟩ := h
  induction m with
  | nil => exact Memory.read_cons_self [] a b (by simp)
  | cons c m ih =>
    rw [List.pairwise_cons] at hs
    unfold Memory.write
    split
    · next hlt =>
      refine Memory.read_cons_self _ a b ?_
      intro d hd
      rcases List.mem_cons.1 hd with rfl | hd
      · exact hlt
      · exact lt_trans hlt (hs.1 d hd)
    · split
      · next heq => exact Memory.read_cons_self _ a b fun d hd => heq ▸ hs.1 d hd
      · next hne => rw [Memory.read, if_neg (Ne.symm hne), ih hs.2]

/-- The addresses that a write lists: those listed before, and the one written. -/
theorem Memory.mem_cons (m : Memory) (a : Nat) (b : Byte) (d : Host.Cell) (h : d ∈ Memory.cons a b m) :
    d ∈ m ∨ (d = (a, b) ∧ b ≠ resetByte a) := by
  unfold Memory.cons at h
  split at h
  · exact .inl h
  · next hb => exact (List.mem_cons.1 h).elim (fun e => .inr ⟨e, hb⟩) .inl

theorem Memory.mem_write (m : Memory) (a : Nat) (b : Byte) (d : Host.Cell) (h : d ∈ Memory.write m a b) :
    d ∈ m ∨ (d = (a, b) ∧ b ≠ resetByte a) := by
  induction m with
  | nil => exact Memory.mem_cons [] a b d h
  | cons c m ih =>
    unfold Memory.write at h
    split at h
    · exact Memory.mem_cons _ a b d h
    · split at h
      · exact (Memory.mem_cons _ a b d h).imp_left (List.mem_cons_of_mem _)
      · rcases List.mem_cons.1 h with rfl | h
        · exact .inl (by simp)
        · exact (ih h).imp_left (List.mem_cons_of_mem _)

theorem Memory.cons_pairwise (m : Memory) (a : Nat) (b : Byte) (hs : m.Pairwise fun c d => c.1 < d.1)
    (h : ∀ c ∈ m, a < c.1) : (Memory.cons a b m).Pairwise fun c d => c.1 < d.1 := by
  unfold Memory.cons
  split
  · exact hs
  · exact List.pairwise_cons.2 ⟨h, hs⟩

theorem Memory.write_pairwise (m : Memory) (a : Nat) (b : Byte) (hs : m.Pairwise fun c d => c.1 < d.1) :
    (Memory.write m a b).Pairwise fun c d => c.1 < d.1 := by
  induction m with
  | nil => exact Memory.cons_pairwise [] a b hs (by simp)
  | cons c m ih =>
    have hs' := List.pairwise_cons.1 hs
    unfold Memory.write
    split
    · next hlt =>
      refine Memory.cons_pairwise _ a b hs fun d hd => ?_
      rcases List.mem_cons.1 hd with rfl | hd
      · exact hlt
      · exact lt_trans hlt (hs'.1 d hd)
    · next hge =>
      split
      · next heq => exact Memory.cons_pairwise _ a b hs'.2 fun d hd => heq ▸ hs'.1 d hd
      · next hne =>
        refine List.pairwise_cons.2 ⟨fun d hd => ?_, ih hs'.2⟩
        rcases Memory.mem_write m a b d hd with hd | ⟨rfl, -⟩
        · exact hs'.1 d hd
        · show c.1 < a
          omega

/-- A write inside the address space keeps the canonical form. -/
theorem Memory.write_wf (m : Memory) (a : Nat) (b : Byte) (h : Memory.wf m) (ha : a < 4096) :
    Memory.wf (Memory.write m a b) := by
  refine ⟨Memory.write_pairwise m a b h.1, fun c hc => ?_⟩
  rcases Memory.mem_write m a b c hc with hc | ⟨rfl, hb⟩
  · exact h.2 c hc
  · exact ⟨ha, hb⟩

theorem Memory.writeBytes_wf (m : Memory) (a : Nat) (bs : List Byte) (h : Memory.wf m) (ha : a + bs.length ≤ 4096) :
    Memory.wf (Memory.writeBytes m a bs) := by
  induction bs generalizing m a with
  | nil => exact h
  | cons b bs ih =>
    simp only [List.length_cons] at ha
    exact ih _ _ (Memory.write_wf m a b h (by omega)) (by omega)

/-- Writing consecutive bytes leaves every address outside them alone, in every memory. -/
theorem Memory.read_writeBytes_of_outside (m : Memory) (a : Nat) (bs : List Byte) (a' : Nat)
    (h : ¬(a ≤ a' ∧ a' < a + bs.length)) : Memory.read (Memory.writeBytes m a bs) a' = Memory.read m a' := by
  induction bs generalizing m a with
  | nil => rfl
  | cons b bs ih =>
    simp only [List.length_cons] at h
    rw [Memory.writeBytes, ih _ _ (by omega), Memory.read_write_of_ne m a b a' (by omega)]

/-- What each address reads after consecutive bytes were written. -/
theorem Memory.read_writeBytes (m : Memory) (a : Nat) (bs : List Byte) (k : Nat) (h : Memory.wf m)
    (ha : a + bs.length ≤ 4096) (hk : k < bs.length) :
    Memory.read (Memory.writeBytes m a bs) (a + k) = bs.getD k 0 := by
  induction bs generalizing m a k with
  | nil => simp at hk
  | cons b bs ih =>
    simp only [List.length_cons] at ha hk
    cases k with
    | zero =>
      rw [Memory.writeBytes, Memory.read_writeBytes_of_outside _ _ _ _ (by omega)]
      exact Memory.read_write_self m a b h
    | succ k =>
      rw [Memory.writeBytes, List.getD_cons_succ, show a + (k + 1) = a + 1 + k by omega]
      exact ih _ _ k (Memory.write_wf m a b h (by omega)) (by omega) (by omega)

theorem Memory.readBytes_length (m : Memory) (a len : Nat) : (Memory.readBytes m a len).length = len := by
  induction len generalizing a with
  | zero => rfl
  | succ n ih => simp [Memory.readBytes, ih]

theorem Memory.readBytes_getD (m : Memory) (a len k : Nat) (h : k < len) :
    (Memory.readBytes m a len).getD k 0 = Memory.read m (a + k) := by
  induction len generalizing a k with
  | zero => omega
  | succ n ih =>
    cases k with
    | zero => rfl
    | succ k => rw [Memory.readBytes, List.getD_cons_succ, ih (a + 1) k (by omega)]; congr 1; omega

theorem reset_memory_wf : Memory.wf State.reset.mem := ⟨List.Pairwise.nil, by simp [State.reset]⟩

theorem bcdDigits_length (b : Byte) : (bcdDigits b).length = 3 := rfl

end Sys2Proof.Machine
end

