-- ==== Sys2Proof/Laws/State.lean ====
section
/-! SUPPORT. Small lemmas of the state: one per field per update, and what a register reads after a write. -/

namespace Sys2Proof.Machine

variable (s : State) (x r : RegNum) (b : Byte) (c : Bool)

@[simp] theorem State.setReg_i : (s.setReg x b).i = s.i := rfl
@[simp] theorem State.setReg_pc : (s.setReg x b).pc = s.pc := rfl
@[simp] theorem State.setReg_sp : (s.setReg x b).sp = s.sp := rfl
@[simp] theorem State.setReg_stack : (s.setReg x b).stack = s.stack := rfl
@[simp] theorem State.setReg_dt : (s.setReg x b).dt = s.dt := rfl
@[simp] theorem State.setReg_st : (s.setReg x b).st = s.st := rfl
@[simp] theorem State.setReg_mem : (s.setReg x b).mem = s.mem := rfl
@[simp] theorem State.setReg_fb : (s.setReg x b).fb = s.fb := rfl
@[simp] theorem State.setReg_key : (s.setReg x b).key = s.key := rfl
@[simp] theorem State.setReg_fault : (s.setReg x b).fault = s.fault := rfl
@[simp] theorem State.setReg_mode : (s.setReg x b).mode = s.mode := rfl
@[simp] theorem State.setReg_host : (s.setReg x b).host = s.host := rfl

@[simp] theorem State.setRegFlag_i : (s.setRegFlag x b c).i = s.i := rfl
@[simp] theorem State.setRegFlag_pc : (s.setRegFlag x b c).pc = s.pc := rfl
@[simp] theorem State.setRegFlag_sp : (s.setRegFlag x b c).sp = s.sp := rfl
@[simp] theorem State.setRegFlag_stack : (s.setRegFlag x b c).stack = s.stack := rfl
@[simp] theorem State.setRegFlag_dt : (s.setRegFlag x b c).dt = s.dt := rfl
@[simp] theorem State.setRegFlag_st : (s.setRegFlag x b c).st = s.st := rfl
@[simp] theorem State.setRegFlag_mem : (s.setRegFlag x b c).mem = s.mem := rfl
@[simp] theorem State.setRegFlag_fb : (s.setRegFlag x b c).fb = s.fb := rfl
@[simp] theorem State.setRegFlag_key : (s.setRegFlag x b c).key = s.key := rfl
@[simp] theorem State.setRegFlag_fault : (s.setRegFlag x b c).fault = s.fault := rfl
@[simp] theorem State.setRegFlag_mode : (s.setRegFlag x b c).mode = s.mode := rfl
@[simp] theorem State.setRegFlag_host : (s.setRegFlag x b c).host = s.host := rfl

@[simp] theorem State.preAdvance_v : s.preAdvance.v = s.v := rfl
@[simp] theorem State.preAdvance_i : s.preAdvance.i = s.i := rfl
@[simp] theorem State.preAdvance_sp : s.preAdvance.sp = s.sp := rfl
@[simp] theorem State.preAdvance_stack : s.preAdvance.stack = s.stack := rfl
@[simp] theorem State.preAdvance_dt : s.preAdvance.dt = s.dt := rfl
@[simp] theorem State.preAdvance_st : s.preAdvance.st = s.st := rfl
@[simp] theorem State.preAdvance_mem : s.preAdvance.mem = s.mem := rfl
@[simp] theorem State.preAdvance_fb : s.preAdvance.fb = s.fb := rfl
@[simp] theorem State.preAdvance_key : s.preAdvance.key = s.key := rfl
@[simp] theorem State.preAdvance_fault : s.preAdvance.fault = s.fault := rfl
@[simp] theorem State.preAdvance_mode : s.preAdvance.mode = s.mode := rfl
@[simp] theorem State.preAdvance_host : s.preAdvance.host = s.host := rfl
@[simp] theorem State.preAdvance_pc : s.preAdvance.pc = s.pc + 2 := rfl

@[simp] theorem State.latchRnd_v : (s.latchRnd b).v = s.v := rfl
@[simp] theorem State.latchRnd_i : (s.latchRnd b).i = s.i := rfl
@[simp] theorem State.latchRnd_pc : (s.latchRnd b).pc = s.pc := rfl
@[simp] theorem State.latchRnd_sp : (s.latchRnd b).sp = s.sp := rfl
@[simp] theorem State.latchRnd_stack : (s.latchRnd b).stack = s.stack := rfl
@[simp] theorem State.latchRnd_dt : (s.latchRnd b).dt = s.dt := rfl
@[simp] theorem State.latchRnd_st : (s.latchRnd b).st = s.st := rfl
@[simp] theorem State.latchRnd_mem : (s.latchRnd b).mem = s.mem := rfl
@[simp] theorem State.latchRnd_fb : (s.latchRnd b).fb = s.fb := rfl
@[simp] theorem State.latchRnd_key : (s.latchRnd b).key = s.key := rfl
@[simp] theorem State.latchRnd_fault : (s.latchRnd b).fault = s.fault := rfl
@[simp] theorem State.latchRnd_mode : (s.latchRnd b).mode = s.mode := rfl
@[simp] theorem State.latchRnd_host_inputs : (s.latchRnd b).host.inputs = s.host.inputs := rfl
@[simp] theorem State.latchRnd_host_schedule : (s.latchRnd b).host.schedule = s.host.schedule := rfl
@[simp] theorem State.latchRnd_host_freeCount : (s.latchRnd b).host.freeCount = s.host.freeCount := rfl
@[simp] theorem State.latchRnd_host_bootOpen : (s.latchRnd b).host.bootOpen = s.host.bootOpen := rfl
@[simp] theorem State.latchRnd_host_rnd : (s.latchRnd b).host.rnd = b := rfl

@[simp] theorem State.closeBoot_v : s.closeBoot.v = s.v := rfl
@[simp] theorem State.closeBoot_i : s.closeBoot.i = s.i := rfl
@[simp] theorem State.closeBoot_pc : s.closeBoot.pc = s.pc := rfl
@[simp] theorem State.closeBoot_sp : s.closeBoot.sp = s.sp := rfl
@[simp] theorem State.closeBoot_stack : s.closeBoot.stack = s.stack := rfl
@[simp] theorem State.closeBoot_dt : s.closeBoot.dt = s.dt := rfl
@[simp] theorem State.closeBoot_st : s.closeBoot.st = s.st := rfl
@[simp] theorem State.closeBoot_mem : s.closeBoot.mem = s.mem := rfl
@[simp] theorem State.closeBoot_fb : s.closeBoot.fb = s.fb := rfl
@[simp] theorem State.closeBoot_key : s.closeBoot.key = s.key := rfl
@[simp] theorem State.closeBoot_fault : s.closeBoot.fault = s.fault := rfl
@[simp] theorem State.closeBoot_mode : s.closeBoot.mode = s.mode := rfl
@[simp] theorem State.closeBoot_host_inputs : s.closeBoot.host.inputs = s.host.inputs := rfl
@[simp] theorem State.closeBoot_host_schedule : s.closeBoot.host.schedule = s.host.schedule := rfl
@[simp] theorem State.closeBoot_host_freeCount : s.closeBoot.host.freeCount = s.host.freeCount := rfl
@[simp] theorem State.closeBoot_host_rnd : s.closeBoot.host.rnd = s.host.rnd := rfl
@[simp] theorem State.closeBoot_host_bootOpen : s.closeBoot.host.bootOpen = false := rfl

@[simp] theorem State.skipIf_v : (s.skipIf c).v = s.v := by cases c <;> rfl
@[simp] theorem State.skipIf_i : (s.skipIf c).i = s.i := by cases c <;> rfl
@[simp] theorem State.skipIf_sp : (s.skipIf c).sp = s.sp := by cases c <;> rfl
@[simp] theorem State.skipIf_stack : (s.skipIf c).stack = s.stack := by cases c <;> rfl
@[simp] theorem State.skipIf_dt : (s.skipIf c).dt = s.dt := by cases c <;> rfl
@[simp] theorem State.skipIf_st : (s.skipIf c).st = s.st := by cases c <;> rfl
@[simp] theorem State.skipIf_mem : (s.skipIf c).mem = s.mem := by cases c <;> rfl
@[simp] theorem State.skipIf_fb : (s.skipIf c).fb = s.fb := by cases c <;> rfl
@[simp] theorem State.skipIf_key : (s.skipIf c).key = s.key := by cases c <;> rfl
@[simp] theorem State.skipIf_fault : (s.skipIf c).fault = s.fault := by cases c <;> rfl
@[simp] theorem State.skipIf_mode : (s.skipIf c).mode = s.mode := by cases c <;> rfl
@[simp] theorem State.skipIf_host : (s.skipIf c).host = s.host := by cases c <;> rfl
@[simp] theorem State.skipIf_pc : (s.skipIf c).pc = if c then s.pc + 2 else s.pc := by cases c <;> rfl

@[simp] theorem State.setRegsFrom_i (k : Nat) (bs : List Byte) : (s.setRegsFrom k bs).i = s.i := by
  induction bs generalizing s k with
  | nil => rfl
  | cons b bs ih => exact ih _ _
@[simp] theorem State.setRegsFrom_pc (k : Nat) (bs : List Byte) : (s.setRegsFrom k bs).pc = s.pc := by
  induction bs generalizing s k with
  | nil => rfl
  | cons b bs ih => exact ih _ _
@[simp] theorem State.setRegsFrom_sp (k : Nat) (bs : List Byte) : (s.setRegsFrom k bs).sp = s.sp := by
  induction bs generalizing s k with
  | nil => rfl
  | cons b bs ih => exact ih _ _
@[simp] theorem State.setRegsFrom_stack (k : Nat) (bs : List Byte) : (s.setRegsFrom k bs).stack = s.stack := by
  induction bs generalizing s k with
  | nil => rfl
  | cons b bs ih => exact ih _ _
@[simp] theorem State.setRegsFrom_dt (k : Nat) (bs : List Byte) : (s.setRegsFrom k bs).dt = s.dt := by
  induction bs generalizing s k with
  | nil => rfl
  | cons b bs ih => exact ih _ _
@[simp] theorem State.setRegsFrom_st (k : Nat) (bs : List Byte) : (s.setRegsFrom k bs).st = s.st := by
  induction bs generalizing s k with
  | nil => rfl
  | cons b bs ih => exact ih _ _
@[simp] theorem State.setRegsFrom_mem (k : Nat) (bs : List Byte) : (s.setRegsFrom k bs).mem = s.mem := by
  induction bs generalizing s k with
  | nil => rfl
  | cons b bs ih => exact ih _ _
@[simp] theorem State.setRegsFrom_fb (k : Nat) (bs : List Byte) : (s.setRegsFrom k bs).fb = s.fb := by
  induction bs generalizing s k with
  | nil => rfl
  | cons b bs ih => exact ih _ _
@[simp] theorem State.setRegsFrom_key (k : Nat) (bs : List Byte) : (s.setRegsFrom k bs).key = s.key := by
  induction bs generalizing s k with
  | nil => rfl
  | cons b bs ih => exact ih _ _
@[simp] theorem State.setRegsFrom_fault (k : Nat) (bs : List Byte) : (s.setRegsFrom k bs).fault = s.fault := by
  induction bs generalizing s k with
  | nil => rfl
  | cons b bs ih => exact ih _ _
@[simp] theorem State.setRegsFrom_mode (k : Nat) (bs : List Byte) : (s.setRegsFrom k bs).mode = s.mode := by
  induction bs generalizing s k with
  | nil => rfl
  | cons b bs ih => exact ih _ _
@[simp] theorem State.setRegsFrom_host (k : Nat) (bs : List Byte) : (s.setRegsFrom k bs).host = s.host := by
  induction bs generalizing s k with
  | nil => rfl
  | cons b bs ih => exact ih _ _

/-! Registers. -/

theorem State.reg_setReg : (s.setReg x b).reg r = if x = r then b else s.reg r := by
  simp only [State.reg, State.setReg, Vector.getElem_set, BitVec.toNat_inj]

@[simp] theorem State.reg_setReg_self : (s.setReg x b).reg x = b := by simp [State.reg_setReg]

theorem State.reg_setReg_of_ne (h : r ≠ x) : (s.setReg x b).reg r = s.reg r := by
  simp [State.reg_setReg, Ne.symm h]

/-- After a flag-writing instruction: `VF` holds the flag whatever `x` is, `V[x]` the result where `x` is not 15. -/
theorem State.reg_setRegFlag :
    (s.setRegFlag x b c).reg r = if r = flagReg then flagByte c else if r = x then b else s.reg r := by
  simp only [State.setRegFlag, State.reg_setReg, eq_comm]

/-- A register reads the same in two states with the same register file. -/
theorem State.reg_congr (t : State) (h : t.v = s.v) : t.reg r = s.reg r := by simp [State.reg, h]

/-- `mode` is not read by a register read. -/
@[simp] theorem State.reg_withMode (m : Mode) : State.reg { s with mode := m } r = s.reg r := rfl

/-- What a register reads after consecutive registers were written. -/
theorem State.reg_setRegsFrom (k : Nat) (bs : List Byte) (h : k + bs.length ≤ 16) :
    (s.setRegsFrom k bs).reg r
      = if k ≤ r.toNat ∧ r.toNat < k + bs.length then bs.getD (r.toNat - k) 0 else s.reg r := by
  induction bs generalizing s k with
  | nil =>
    have : ¬(k ≤ r.toNat ∧ r.toNat < k + ([] : List Byte).length) := by simp
    rw [if_neg this]; rfl
  | cons b bs ih =>
    simp only [List.length_cons] at h ⊢
    rw [State.setRegsFrom, ih (s.setReg (BitVec.ofNat 4 k) b) (k + 1) (by omega), State.reg_setReg]
    have hk : (BitVec.ofNat 4 k).toNat = k := by simp; omega
    by_cases hr : r.toNat = k
    · have hx : BitVec.ofNat 4 k = r := BitVec.eq_of_toNat_eq (by omega)
      rw [if_neg (by omega), if_pos hx, if_pos (by omega), show r.toNat - k = 0 by omega]; rfl
    · have hx : BitVec.ofNat 4 k ≠ r := fun e => hr (by rw [← e]; exact hk)
      by_cases hin : k + 1 ≤ r.toNat ∧ r.toNat < k + 1 + bs.length
      · rw [if_pos hin, if_pos (by omega), show r.toNat - k = (r.toNat - (k + 1)) + 1 by omega, List.getD_cons_succ]
      · rw [if_neg hin, if_neg hx, if_neg (by omega)]

/-- A run of registers read as bytes. -/
theorem State.regsFrom_length (k len : Nat) : (s.regsFrom k len).length = len := by
  induction len generalizing k with
  | zero => rfl
  | succ n ih => simp [State.regsFrom, ih]

theorem State.regsFrom_getD (k len j : Nat) (h : j < len) :
    (s.regsFrom k len).getD j 0 = s.reg (BitVec.ofNat 4 (k + j)) := by
  induction len generalizing k j with
  | zero => omega
  | succ n ih =>
    cases j with
    | zero => rfl
    | succ j => rw [State.regsFrom, List.getD_cons_succ, ih (k + 1) j (by omega)]; congr 2; omega

end Sys2Proof.Machine
end

