-- ==== Sys2Proof/Laws/Exec.lean ====
section
/-! SUPPORT. One lemma for each shared operation that the meanings call: what it answers, and all that it can do. -/

namespace Sys2Proof.Machine

/-! How a cycle ends. -/

theorem State.complete_eq (s : State) : s.complete = .next { s with mode := .running } := rfl

theorem State.raise_eq (s : State) (f : Fault) : s.raise f = .next { s with fault := some f } := rfl

theorem State.complete_eq_next_iff (s t : State) : s.complete = .next t ↔ t = { s with mode := .running } := by
  rw [State.complete_eq, Host.Outcome.next.injEq]; exact eq_comm

theorem State.raise_eq_next_iff (s t : State) (f : Fault) : s.raise f = .next t ↔ t = { s with fault := some f } := by
  rw [State.raise_eq, Host.Outcome.next.injEq]; exact eq_comm

/-! Operands. -/

theorem outOfRange_eq_true_iff (a len : Nat) : outOfRange a len = true ↔ a + len - 1 > 0xFFF := by
  simp [outOfRange]

theorem outOfRange_eq_false_iff (a len : Nat) : outOfRange a len = false ↔ a + len - 1 ≤ 0xFFF := by
  simp [outOfRange]

theorem addrWord_toNat (nnn : Addr) : (addrWord nnn).toNat = nnn.toNat := by
  simp [addrWord]; omega

/-- The sum of `Bnnn` is exact: at most `0x10FE` (41_control_flow.md R148). -/
theorem offsetTarget_toNat (nnn : Addr) (b : Byte) : (offsetTarget nnn b).toNat = nnn.toNat + b.toNat := by
  have := nnn.isLt
  have := b.isLt
  simp [offsetTarget, addrWord]; omega

theorem glyphAddr_toNat (b : Byte) : (glyphAddr b).toNat = 5 * b.toNat := by
  have := b.isLt
  simp [glyphAddr]; omega

theorem pressedKeys_eq_nil_iff (key : Vector Bool 16) : pressedKeys key = [] ↔ ∀ k : Fin 16, key[k.val] = false := by
  simp [pressedKeys, List.filter_eq_nil_iff]

theorem mem_pressedKeys (key : Vector Bool 16) (k : Fin 16) : k ∈ pressedKeys key ↔ key[k.val] = true := by
  simp [pressedKeys]

/-- Whatever the free choice, `keyPick` reports a pressed key (45_keypad_timers.md R233). -/
theorem keyPick_pressed (key : Vector Bool 16) (h : pressedKeys key ≠ []) : key[(keyPick key).val] = true := by
  rw [← mem_pressedKeys]
  unfold keyPick
  generalize pressedKeys key = ps at h ⊢
  match ps with
  | [k] => simp
  | k :: k' :: ks =>
    have hlt : Config.keyChoice key % (k :: k' :: ks).length < (k :: k' :: ks).length := Nat.mod_lt _ (by simp)
    show (k :: k' :: ks).getD _ k ∈ _
    rw [List.getD_eq_getElem _ _ hlt]
    exact List.getElem_mem hlt

/-- Memory is changed by the two storing instructions alone, and then by consecutive bytes inside the address space. -/
theorem exec_mem (i : Instr) (s t : State) (h : exec i s = .next t) :
    t.mem = s.mem ∨ ∃ a bs, a + bs.length ≤ 4096 ∧ t.mem = Memory.writeBytes s.mem a bs := by
  cases i
  case ldB x =>
    simp only [exec, execLdB] at h
    split at h
    · rw [State.raise_eq_next_iff] at h; exact .inl (by rw [h])
    · next hr =>
      rw [Bool.not_eq_true, outOfRange_eq_false_iff] at hr
      rw [State.complete_eq_next_iff] at h
      subst h
      exact .inr ⟨s.i.toNat, bcdDigits (s.reg x), by rw [bcdDigits_length]; omega, rfl⟩
  case storeRegs x =>
    simp only [exec, execStoreRegs] at h
    split at h
    · rw [State.raise_eq_next_iff] at h; exact .inl (by rw [h])
    · next hr =>
      rw [Bool.not_eq_true, outOfRange_eq_false_iff] at hr
      rw [State.complete_eq_next_iff] at h
      subst h
      exact .inr ⟨s.i.toNat, s.regsFrom 0 (regCount x), by rw [State.regsFrom_length]; omega, rfl⟩
  all_goals
    refine .inl ?_
    simp only [exec, execCls, execRet, execJp, execCall, execSeImm, execSneImm, execSeReg, execLdImm, execAddImm, execLdReg,
      execOrReg, execAndReg, execXorReg, execAddReg, execSub, execShr, execSubn, execShl, execSneReg, execLdI, execJpV0,
      execRnd, execDrw, execSkp, execSknp, execLdVxDt, execLdVxK, execLdDtVx, execLdStVx, execAddI, execLdF,
      execLoadRegs] at h
    repeat' split at h
    all_goals
      first
        | rw [State.complete_eq_next_iff] at h
        | rw [State.raise_eq_next_iff] at h
        | (injection h with h; subst h)
      first
        | rfl
        | (subst h; simp)

/-- No instruction touches the host's side of the interface. -/
theorem exec_host (i : Instr) (s t : State) (h : exec i s = .next t) : t.host = s.host := by
  cases i
  all_goals
    simp only [exec, execCls, execRet, execJp, execCall, execSeImm, execSneImm, execSeReg, execLdImm, execAddImm, execLdReg,
      execOrReg, execAndReg, execXorReg, execAddReg, execSub, execShr, execSubn, execShl, execSneReg, execLdI, execJpV0,
      execRnd, execDrw, execSkp, execSknp, execLdVxDt, execLdVxK, execLdDtVx, execLdStVx, execAddI, execLdF, execLdB,
      execStoreRegs, execLoadRegs] at h
    repeat' split at h
    all_goals
      first
        | rw [State.complete_eq_next_iff] at h
        | rw [State.raise_eq_next_iff] at h
        | (injection h with h; subst h)
      first
        | rfl
        | (subst h; simp)

/-- Every instruction answers a next state, on every state (40_dispatch.md R128: no instruction is refused, none blocks). -/
theorem exec_next (i : Instr) (s : State) : ∃ t, exec i s = .next t := by
  cases i <;>
    simp only [exec, execCls, execRet, execJp, execCall, execSeImm, execSneImm, execSeReg, execLdImm, execAddImm, execLdReg,
      execOrReg, execAndReg, execXorReg, execAddReg, execSub, execShr, execSubn, execShl, execSneReg, execLdI, execJpV0,
      execRnd, execDrw, execSkp, execSknp, execLdVxDt, execLdVxK, execLdDtVx, execLdStVx, execAddI, execLdF, execLdB,
      execStoreRegs, execLoadRegs, State.complete_eq, State.raise_eq] <;>
    (repeat' split) <;> exact ⟨_, rfl⟩

end Sys2Proof.Machine
end

