-- ==== Sys2Proof/Laws/Events.lean ====
section
/-! SUPPORT. What a cycle, an event and a step can do, each said once. -/

namespace Sys2Proof.Machine

/-- A cycle of a machine that is not halted: a FetchRangeFault, a DecodeFault or the handler of the decoded instruction, in that
order of checks (60_exceptions.md R261). -/
theorem runCycle_cases (s t : State) (h : runCycle s = .next t) :
    (s.pc.toNat > 0xFFE ∧ t = { s with fault := some (.fetchRange s.pc) })
    ∨ (s.pc.toNat ≤ 0xFFE ∧ (∃ e, decodeWord s.fetchWord = .error e)
        ∧ t = { s.preAdvance with fault := some (.decode s.pc s.fetchWord) })
    ∨ (s.pc.toNat ≤ 0xFFE ∧ ∃ i, decodeWord s.fetchWord = .ok i ∧ exec i s.preAdvance = .next t) := by
  unfold runCycle at h
  split at h
  · next hc =>
    have hc : s.pc.toNat ≤ 0xFFE := by simpa [State.canFetch] using hc
    split at h
    · next i hi => exact .inr (.inr ⟨hc, i, hi, h⟩)
    · next e he => exact .inr (.inl ⟨hc, ⟨e, he⟩, (State.raise_eq_next_iff _ _ _).1 h⟩)
  · next hc => exact .inl ⟨by simpa [State.canFetch] using hc, (State.raise_eq_next_iff _ _ _).1 h⟩

theorem canFetch_iff (s : State) : s.canFetch = true ↔ s.pc.toNat ≤ 0xFFE := by simp [State.canFetch]

theorem runCycle_of_ok (s : State) (i : Instr) (hp : s.pc.toNat ≤ 0xFFE) (hd : decodeWord s.fetchWord = .ok i) :
    runCycle s = exec i s.preAdvance := by
  unfold runCycle
  rw [if_pos ((canFetch_iff s).2 hp), hd]

theorem runCycle_of_error (s : State) (e : DecodeReject) (hp : s.pc.toNat ≤ 0xFFE)
    (hd : decodeWord s.fetchWord = .error e) :
    runCycle s = .next { s.preAdvance with fault := some (.decode s.pc s.fetchWord) } := by
  unfold runCycle
  rw [if_pos ((canFetch_iff s).2 hp), hd]
  rfl

theorem runCycle_of_gt (s : State) (hp : s.pc.toNat > 0xFFE) :
    runCycle s = .next { s with fault := some (.fetchRange s.pc) } := by
  unfold runCycle
  rw [if_neg (by rw [canFetch_iff]; omega)]
  rfl

/-- A cycle always answers a next state. -/
theorem runCycle_next (s : State) : ∃ t, runCycle s = .next t := by
  unfold runCycle
  split
  · split
    · exact exec_next _ _
    · exact ⟨_, rfl⟩
  · exact ⟨_, rfl⟩

theorem cycleEvent_of_fault (b : Byte) (s : State) (h : s.fault ≠ none) : cycleEvent b s = .next s := by
  unfold cycleEvent State.halted
  rw [if_pos (Option.isSome_iff_ne_none.2 h)]

theorem cycleEvent_of_noFault (b : Byte) (s : State) (h : s.fault = none) :
    cycleEvent b s = runCycle (s.latchRnd b).closeBoot := by
  simp [cycleEvent, State.halted, h]

theorem tickEvent_of_fault (s : State) (h : s.fault ≠ none) : tickEvent s = .next s := by
  unfold tickEvent State.halted
  rw [if_pos (Option.isSome_iff_ne_none.2 h)]

theorem tickEvent_of_noFault (s : State) (h : s.fault = none) :
    tickEvent s = .next (State.closeBoot { s with dt := countDown s.dt, st := countDown s.st }) := by
  simp [tickEvent, State.halted, h]

theorem countDown_toNat (b : Byte) : (countDown b).toNat = b.toNat - 1 := by
  have := b.isLt
  unfold countDown
  split
  · next h => simp [h]
  · next h =>
    have : b.toNat ≠ 0 := fun e => h (BitVec.eq_of_toNat_eq (by simpa using e))
    rw [BitVec.toNat_sub]; simp; omega

/-- The fetched word does not depend on the host's side of the interface. -/
theorem fetchWord_congr (s t : State) (hm : t.mem = s.mem) (hp : t.pc = s.pc) : t.fetchWord = s.fetchWord := by
  simp [State.fetchWord, hm, hp]

theorem loadRom_of_gt (bytes : List Byte) (s : State) (h : bytes.length > 3584) : loadRom bytes s = none :=
  if_pos h

theorem loadRom_of_le (bytes : List Byte) (s : State) (h : bytes.length ≤ 3584) :
    loadRom bytes s
      = some { s with mem := Memory.writeBytes s.mem 0x200 bytes, host := { s.host with bootOpen := false } } :=
  if_neg (show ¬bytes.length > 3584 by omega)

/-- All that an event can do. -/
theorem eventStep_cases (e : HostEvent) (s t : State) (h : eventStep e s = .next t) :
    (e = .reset ∧ t = { State.reset with host := { s.host with bootOpen := true } })
    ∨ (∃ bytes, e = .loadRom bytes ∧ s.host.bootOpen = true ∧ bytes.length > 3584 ∧ t = s)
    ∨ (∃ bytes, e = .loadRom bytes ∧ s.host.bootOpen = true ∧ bytes.length ≤ 3584
        ∧ t = { s with mem := Memory.writeBytes s.mem 0x200 bytes, host := { s.host with bootOpen := false } })
    ∨ (∃ k b, e = .setKey k b ∧ t = { s with key := s.key.set k.val b })
    ∨ (((∃ b, e = .cycle b) ∨ e = .tick) ∧ s.fault ≠ none ∧ t = s)
    ∨ (e = .tick ∧ s.fault = none
        ∧ t = State.closeBoot { s with dt := countDown s.dt, st := countDown s.st })
    ∨ (∃ b, e = .cycle b ∧ s.fault = none ∧ runCycle (s.latchRnd b).closeBoot = .next t) := by
  cases e with
  | reset => exact .inl ⟨rfl, by simpa [eventStep, resetEvent] using h.symm⟩
  | loadRom bytes =>
    simp only [eventStep, loadRomEvent] at h
    split at h
    · next hb =>
      by_cases hl : bytes.length > 3584
      · rw [loadRom_of_gt bytes s hl] at h
        exact .inr (.inl ⟨bytes, rfl, hb, hl, by simpa using h.symm⟩)
      · rw [loadRom_of_le bytes s (by omega)] at h
        exact .inr (.inr (.inl ⟨bytes, rfl, hb, by omega, by simpa using h.symm⟩))
    · cases h
  | setKey k b => exact .inr (.inr (.inr (.inl ⟨k, b, rfl, by simpa [eventStep, setKeyEvent] using h.symm⟩)))
  | cycle b =>
    by_cases hf : s.fault = none
    · exact .inr (.inr (.inr (.inr (.inr (.inr ⟨b, rfl, hf, by rwa [← cycleEvent_of_noFault b s hf]⟩)))))
    · rw [eventStep, cycleEvent_of_fault b s hf] at h
      exact .inr (.inr (.inr (.inr (.inl ⟨.inl ⟨b, rfl⟩, hf, by simpa using h.symm⟩))))
  | tick =>
    by_cases hf : s.fault = none
    · rw [eventStep, tickEvent_of_noFault s hf] at h
      exact .inr (.inr (.inr (.inr (.inr (.inl ⟨rfl, hf, by simpa using h.symm⟩)))))
    · rw [eventStep, tickEvent_of_fault s hf] at h
      exact .inr (.inr (.inr (.inr (.inl ⟨.inr rfl, hf, by simpa using h.symm⟩))))

/-- An event of a run is never refused (00_scope.md R7). -/
theorem eventStep_run_next (e : RunEvent) (s : State) : ∃ t, eventStep (hostEventOf e) s = .next t := by
  cases e with
  | cycle b =>
    by_cases hf : s.fault = none
    · exact ⟨_, (cycleEvent_of_noFault b s hf).trans (runCycle_next _).choose_spec⟩
    · exact ⟨s, cycleEvent_of_fault b s hf⟩
  | tick =>
    by_cases hf : s.fault = none
    · exact ⟨_, tickEvent_of_noFault s hf⟩
    · exact ⟨s, tickEvent_of_fault s hf⟩
  | setKey k b => exact ⟨_, rfl⟩

/-- A cycle keeps the host's side of the interface. -/
theorem runCycle_host (s t : State) (h : runCycle s = .next t) : t.host = s.host := by
  rcases runCycle_cases s t h with ⟨_, rfl⟩ | ⟨_, _, rfl⟩ | ⟨_, i, _, he⟩
  · rfl
  · rfl
  · exact exec_host i s.preAdvance t he

/-- No event changes what the host is still going to issue. -/
theorem eventStep_plan (e : HostEvent) (s t : State) (h : eventStep e s = .next t) :
    t.host.inputs = s.host.inputs ∧ t.host.schedule = s.host.schedule ∧ t.host.freeCount = s.host.freeCount := by
  rcases eventStep_cases e s t h with ⟨_, rfl⟩ | ⟨_, _, _, _, rfl⟩ | ⟨_, _, _, _, rfl⟩ | ⟨_, _, _, rfl⟩ | ⟨_, _, rfl⟩
    | ⟨_, _, rfl⟩ | ⟨b, _, _, hr⟩
  case inr.inr.inr.inr.inr.inr => rw [runCycle_host _ t hr]; exact ⟨rfl, rfl, rfl⟩
  all_goals exact ⟨rfl, rfl, rfl⟩

/-- The state an event meets differs from the step's only in what the host still has in hand. -/
theorem takeEvent_state (s : State) : (takeEvent s).2 = { s with host := (takeEvent s).2.host } := by
  unfold takeEvent; split <;> rfl

theorem takeEvent_bootOpen (s : State) : (takeEvent s).2.host.bootOpen = s.host.bootOpen := by
  unfold takeEvent; split <;> rfl

theorem step_eq (s : State) : step s = eventStep (takeEvent s).1 (takeEvent s).2 := rfl

theorem run_succ (M : Host.Core) (n : Nat) (s t : M.State) (h : M.step s = .next t) : M.run (n + 1) s = M.run n t := by
  simp only [Host.Core.run, h]

/-- A run of the machine, one step unrolled. -/
theorem core_run_succ (n : Nat) (s t : State) (h : step s = .next t) :
    Host.Core.run Sys2Proof.core (n + 1) s = Host.Core.run Sys2Proof.core n t :=
  run_succ Sys2Proof.core n s t h

end Sys2Proof.Machine
end

