-- ==== Sys2Proof/Laws/PerInstr.lean ====
section
/-! SUPPORT. The law made per instruction: its encoding has the fixed bits of its row of spec/30_encoding.md R95. -/

namespace Sys2Proof.Laws

/-- `w & mask = match` for the word an instruction is encoded as. -/
def RowMatch.Statement (i : Instr) : Prop := encode i &&& i.mask = i.pattern

theorem nibble_and (a : BitVec 4) : a &&& 0xF = a := by revert a; decide

theorem byte_and (a : Byte) : a &&& 0xFF = a := by revert a; decide

/-- The bits that mask `F000` keeps. -/
theorem and_F000 (op : BitVec 4) (d : BitVec 12) : (op ++ d : Word) &&& 0xF000 = op ++ (0 : BitVec 12) := by
  rw [show (0xF000 : Word) = (0xF : BitVec 4) ++ (0 : BitVec 12) from rfl, BitVec.and_append, nibble_and]
  simp

/-- The bits that mask `F0FF` keeps. -/
theorem and_F0FF (op x : BitVec 4) (kk : Byte) :
    formXKK op x kk &&& 0xF0FF = formXKK op 0 kk := by
  rw [show (0xF0FF : Word) = (0xF : BitVec 4) ++ ((0 : BitVec 4) ++ (0xFF : BitVec 8) : BitVec 12) from rfl, formXKK,
    BitVec.and_append, BitVec.and_append, nibble_and, byte_and]
  simp [formXKK]

/-- The bits that mask `F00F` keeps. -/
theorem and_F00F (op x y n : BitVec 4) : formXYN op x y n &&& 0xF00F = formXYN op 0 0 n := by
  rw [show (0xF00F : Word)
      = (0xF : BitVec 4) ++ ((0 : BitVec 4) ++ ((0 : BitVec 4) ++ (0xF : BitVec 4) : BitVec 8) : BitVec 12) from rfl,
    formXYN, BitVec.and_append, BitVec.and_append, BitVec.and_append, nibble_and,
    nibble_and]
  simp [formXYN]

end Sys2Proof.Laws

open Sys2Proof Sys2Proof.Laws

theorem Sys2Proof.Laws.RowMatch.cls : RowMatch.Statement (.cls) := rfl
theorem Sys2Proof.Laws.RowMatch.ret : RowMatch.Statement (.ret) := rfl
theorem Sys2Proof.Laws.RowMatch.jp (nnn : Addr) : RowMatch.Statement (.jp nnn) := and_F000 _ _
theorem Sys2Proof.Laws.RowMatch.call (nnn : Addr) : RowMatch.Statement (.call nnn) := and_F000 _ _
theorem Sys2Proof.Laws.RowMatch.seImm (x : RegNum) (kk : Byte) : RowMatch.Statement (.seImm x kk) := and_F000 _ _
theorem Sys2Proof.Laws.RowMatch.sneImm (x : RegNum) (kk : Byte) : RowMatch.Statement (.sneImm x kk) := and_F000 _ _
theorem Sys2Proof.Laws.RowMatch.seReg (x : RegNum) (y : RegNum) : RowMatch.Statement (.seReg x y) := and_F000 _ _
theorem Sys2Proof.Laws.RowMatch.ldImm (x : RegNum) (kk : Byte) : RowMatch.Statement (.ldImm x kk) := and_F000 _ _
theorem Sys2Proof.Laws.RowMatch.addImm (x : RegNum) (kk : Byte) : RowMatch.Statement (.addImm x kk) := and_F000 _ _
theorem Sys2Proof.Laws.RowMatch.ldReg (x : RegNum) (y : RegNum) : RowMatch.Statement (.ldReg x y) := and_F00F _ _ _ _
theorem Sys2Proof.Laws.RowMatch.orReg (x : RegNum) (y : RegNum) : RowMatch.Statement (.orReg x y) := and_F00F _ _ _ _
theorem Sys2Proof.Laws.RowMatch.andReg (x : RegNum) (y : RegNum) : RowMatch.Statement (.andReg x y) := and_F00F _ _ _ _
theorem Sys2Proof.Laws.RowMatch.xorReg (x : RegNum) (y : RegNum) : RowMatch.Statement (.xorReg x y) := and_F00F _ _ _ _
theorem Sys2Proof.Laws.RowMatch.addReg (x : RegNum) (y : RegNum) : RowMatch.Statement (.addReg x y) := and_F00F _ _ _ _
theorem Sys2Proof.Laws.RowMatch.sub (x : RegNum) (y : RegNum) : RowMatch.Statement (.sub x y) := and_F00F _ _ _ _
theorem Sys2Proof.Laws.RowMatch.shr (x : RegNum) (y : RegNum) : RowMatch.Statement (.shr x y) := and_F00F _ _ _ _
theorem Sys2Proof.Laws.RowMatch.subn (x : RegNum) (y : RegNum) : RowMatch.Statement (.subn x y) := and_F00F _ _ _ _
theorem Sys2Proof.Laws.RowMatch.shl (x : RegNum) (y : RegNum) : RowMatch.Statement (.shl x y) := and_F00F _ _ _ _
theorem Sys2Proof.Laws.RowMatch.sneReg (x : RegNum) (y : RegNum) : RowMatch.Statement (.sneReg x y) := and_F000 _ _
theorem Sys2Proof.Laws.RowMatch.ldI (nnn : Addr) : RowMatch.Statement (.ldI nnn) := and_F000 _ _
theorem Sys2Proof.Laws.RowMatch.jpV0 (nnn : Addr) : RowMatch.Statement (.jpV0 nnn) := and_F000 _ _
theorem Sys2Proof.Laws.RowMatch.rnd (x : RegNum) (kk : Byte) : RowMatch.Statement (.rnd x kk) := and_F000 _ _
theorem Sys2Proof.Laws.RowMatch.drw (x : RegNum) (y : RegNum) (n : BitVec 4) : RowMatch.Statement (.drw x y n) := and_F000 _ _
theorem Sys2Proof.Laws.RowMatch.skp (x : RegNum) : RowMatch.Statement (.skp x) := and_F0FF _ _ _
theorem Sys2Proof.Laws.RowMatch.sknp (x : RegNum) : RowMatch.Statement (.sknp x) := and_F0FF _ _ _
theorem Sys2Proof.Laws.RowMatch.ldVxDt (x : RegNum) : RowMatch.Statement (.ldVxDt x) := and_F0FF _ _ _
theorem Sys2Proof.Laws.RowMatch.ldVxK (x : RegNum) : RowMatch.Statement (.ldVxK x) := and_F0FF _ _ _
theorem Sys2Proof.Laws.RowMatch.ldDtVx (x : RegNum) : RowMatch.Statement (.ldDtVx x) := and_F0FF _ _ _
theorem Sys2Proof.Laws.RowMatch.ldStVx (x : RegNum) : RowMatch.Statement (.ldStVx x) := and_F0FF _ _ _
theorem Sys2Proof.Laws.RowMatch.addI (x : RegNum) : RowMatch.Statement (.addI x) := and_F0FF _ _ _
theorem Sys2Proof.Laws.RowMatch.ldF (x : RegNum) : RowMatch.Statement (.ldF x) := and_F0FF _ _ _
theorem Sys2Proof.Laws.RowMatch.ldB (x : RegNum) : RowMatch.Statement (.ldB x) := and_F0FF _ _ _
theorem Sys2Proof.Laws.RowMatch.storeRegs (x : RegNum) : RowMatch.Statement (.storeRegs x) := and_F0FF _ _ _
theorem Sys2Proof.Laws.RowMatch.loadRegs (x : RegNum) : RowMatch.Statement (.loadRegs x) := and_F0FF _ _ _
end

