-- ==== Sys2Proof/Tests/Slice0.lean ====
section
/-! SUPPORT. Tests: words written out from spec/30_encoding.md, rows of spec/95_test_vectors.md, and for each statement with
hypotheses a state that meets them. -/

namespace Sys2Proof.Tests

open Sys2Proof.Machine

/-! Helpers. -/

/-- A word at `pc`, as the vectors of 95_test_vectors.md place it. -/
def placed (w : Word) (s : State) : State := { s with mem := Memory.writeBytes s.mem s.pc.toNat (bytesOfWord w) }

/-- Some bytes of memory set. -/
def poked : List (Nat × Byte) → State → State
  | [], s => s
  | (a, b) :: l, s => poked l { s with mem := Memory.write s.mem a b }

/-- Some registers set. -/
def regs : List (RegNum × Byte) → State → State
  | [], s => s
  | (x, b) :: l, s => regs l (s.setReg x b)

/-- A screen with these pixels (row, column) on. -/
def lit : List (Nat × Nat) → Framebuffer
  | [] => Vector.replicate 32 0
  | (r, c) :: l => (lit l).toggleRow r ((1 : BitVec 64) <<< (63 - c))

/-- The host issues one event next. -/
def given (e : HostEvent) (s : State) : State := { s with host := { s.host with inputs := [e] } }

/-- The state after a step, where it answers one. -/
def stepped (s : State) : Option State :=
  match step s with
  | .next t => some t
  | .fault _ => none
  | .refused _ => none

/-- The state after one cycle with this random byte. -/
def cycled (rnd : Byte) (s : State) : Option State := stepped (given (.cycle rnd) s)

/-- The state an outcome answers, else the given one. -/
def landed (s : State) (r : Result) : State :=
  match r with
  | .next t => t
  | .fault _ => s
  | .refused _ => s

/-! Well-formedness: a word of each kind of row of 30_encoding.md R99 is refused, its neighbours are not. Each operand of an
instruction has a type of exactly its field's values, so no instruction is ill-formed. -/

theorem test_illegal_family0 : illegalWord 0x0000 = true ∧ illegalWord 0x01E0 = true ∧ illegalWord 0x00E0 = false := by decide
theorem test_illegal_family8 : illegalWord 0x8128 = true ∧ illegalWord 0x812F = true ∧ illegalWord 0x812E = false := by decide
theorem test_illegal_familyE : illegalWord 0xE19F = true ∧ illegalWord 0xE19E = false := by decide
theorem test_illegal_familyF : illegalWord 0xF175 = true ∧ illegalWord 0xF165 = false := by decide
theorem test_wellFormed_every_operand :
    (List.finRange 16).all (fun x => (List.finRange 16).all fun y => Instr.wellFormed
      (.addReg (BitVec.ofNat 4 x.val) (BitVec.ofNat 4 y.val))) = true := by decide

/-! Decoding: each constructor's word, its nibbles written from the row of 30_encoding.md R95. -/

theorem test_decode_cls : decodeWord 0b0000000011100000 = .ok .cls := rfl
theorem test_decode_ret : decodeWord 0b0000000011101110 = .ok .ret := rfl
theorem test_decode_jp : decodeWord 0b0001001000000101 = .ok (.jp 0x205) := rfl
theorem test_decode_call : decodeWord 0b0010101010111100 = .ok (.call 0xABC) := rfl
theorem test_decode_seImm : decodeWord 0b0011101000000111 = .ok (.seImm 0xA 0x07) := rfl
theorem test_decode_sneImm : decodeWord 0b0100101000000111 = .ok (.sneImm 0xA 0x07) := rfl
theorem test_decode_seReg : decodeWord 0b0101000100100000 = .ok (.seReg 0x1 0x2) := rfl
theorem test_decode_ldImm : decodeWord 0b0110111100010010 = .ok (.ldImm 0xF 0x12) := rfl
theorem test_decode_addImm : decodeWord 0b0111000111111111 = .ok (.addImm 0x1 0xFF) := rfl
theorem test_decode_ldReg : decodeWord 0b1000000100100000 = .ok (.ldReg 0x1 0x2) := rfl
theorem test_decode_orReg : decodeWord 0b1000000100100001 = .ok (.orReg 0x1 0x2) := rfl
theorem test_decode_andReg : decodeWord 0b1000000100100010 = .ok (.andReg 0x1 0x2) := rfl
theorem test_decode_xorReg : decodeWord 0b1000000100100011 = .ok (.xorReg 0x1 0x2) := rfl
theorem test_decode_addReg : decodeWord 0b1000000100100100 = .ok (.addReg 0x1 0x2) := rfl
theorem test_decode_sub : decodeWord 0b1000000100100101 = .ok (.sub 0x1 0x2) := rfl
theorem test_decode_shr : decodeWord 0b1000000100100110 = .ok (.shr 0x1 0x2) := rfl
theorem test_decode_subn : decodeWord 0b1000000100100111 = .ok (.subn 0x1 0x2) := rfl
theorem test_decode_shl : decodeWord 0b1000000100101110 = .ok (.shl 0x1 0x2) := rfl
theorem test_decode_sneReg : decodeWord 0b1001000100100000 = .ok (.sneReg 0x1 0x2) := rfl
theorem test_decode_ldI : decodeWord 0b1010001011110000 = .ok (.ldI 0x2F0) := rfl
theorem test_decode_jpV0 : decodeWord 0b1011001100000000 = .ok (.jpV0 0x300) := rfl
theorem test_decode_rnd : decodeWord 0b1100000100001111 = .ok (.rnd 0x1 0x0F) := rfl
theorem test_decode_drw : decodeWord 0b1101000100100101 = .ok (.drw 0x1 0x2 0x5) := rfl
theorem test_decode_skp : decodeWord 0b1110001110011110 = .ok (.skp 0x3) := rfl
theorem test_decode_sknp : decodeWord 0b1110001110100001 = .ok (.sknp 0x3) := rfl
theorem test_decode_ldVxDt : decodeWord 0b1111010000000111 = .ok (.ldVxDt 0x4) := rfl
theorem test_decode_ldVxK : decodeWord 0b1111010100001010 = .ok (.ldVxK 0x5) := rfl
theorem test_decode_ldDtVx : decodeWord 0b1111011000010101 = .ok (.ldDtVx 0x6) := rfl
theorem test_decode_ldStVx : decodeWord 0b1111011100011000 = .ok (.ldStVx 0x7) := rfl
theorem test_decode_addI : decodeWord 0b1111001000011110 = .ok (.addI 0x2) := rfl
theorem test_decode_ldF : decodeWord 0b1111001100101001 = .ok (.ldF 0x3) := rfl
theorem test_decode_ldB : decodeWord 0b1111010000110011 = .ok (.ldB 0x4) := rfl
theorem test_decode_storeRegs : decodeWord 0b1111001001010101 = .ok (.storeRegs 0x2) := rfl
theorem test_decode_loadRegs : decodeWord 0b1111000101100101 = .ok (.loadRegs 0x1) := rfl

/-- R97: the low nibble of families 5 and 9 is not examined. -/
theorem test_decode_low_nibble : decodeWord 0x512F = .ok (.seReg 0x1 0x2) ∧ decodeWord 0x9127 = .ok (.sneReg 0x1 0x2) :=
  ⟨rfl, rfl⟩

/-- Each kind of rejection, by name. -/
theorem test_decode_rejects :
    decodeWord 0x0123 = .error (.family0 0x0123) ∧ decodeWord 0x812D = .error (.family8 0x812D)
      ∧ decodeWord 0xE1A0 = .error (.familyE 0xE1A0) ∧ decodeWord 0xF11F = .error (.familyF 0xF11F)
      ∧ decodeBytes [0x12] = .error .truncated ∧ decodeBytes [] = .error .truncated :=
  ⟨rfl, rfl, rfl, rfl, rfl, rfl⟩

/-- R60: the byte at the lower address is the high byte. -/
theorem test_decode_bytes : decodeBytes [0x12, 0x05, 0x6A] = .ok (.jp 0x205, [0x6A]) := rfl

/-- The opcode table's own numbering of a word. -/
theorem test_decode_table_word : decodeTableWord 16 0x00E0 = some .cls ∧ decodeTableWord 16 0x0000 = none := by decide

/-- An instruction of the opcode table runs as the first one after reset. -/
theorem test_withFetchWord :
    (stepped (State.reset.withFetchWord 16 0x6A55)).map (fun t => (t.reg 10, t.pc)) = some (0x55, 0x0202) := by decide

/-! Control transfer (41_control_flow.md): rows of 95_test_vectors.md part L2. -/

/-- T3. -/
theorem test_ret_full_depth :
    (cycled 0 <| placed 0x00EE <| { State.reset with pc := 0x0400, sp := 16, stack := State.reset.stack.set 15 0x0ABC }).map
    (fun t => (t.pc, t.sp)) = some (0x0ABC, 15) := by decide

/-- T2. -/
theorem test_ret_underflow : (cycled 0 <| placed 0x00EE <| State.reset).map
    (fun t => (t.pc, t.fault)) = some (0x0202, some (.stackUnderflow 0x0200 0x00EE)) := by decide

/-- T4. -/
theorem test_jp_odd_target : (cycled 0 <| placed 0x1205 <| State.reset).map
    (fun t => t.pc) = some 0x0205 := by decide

/-- T8. -/
theorem test_call_last_frame : (cycled 0 <| placed 0x2ABC <| { State.reset with pc := 0x03FE, sp := 15 }).map
    (fun t => (t.pc, t.sp, t.stack[15])) = some (0x0ABC, 16, 0x0400) := by decide

/-- T9. -/
theorem test_call_overflow : (cycled 0 <| placed 0x2ABC <| { State.reset with pc := 0x03FE, sp := 16 }).map
    (fun t => (t.pc, t.fault)) = some (0x0400, some (.stackOverflow 0x03FE 0x2ABC)) := by decide

/-- T13. -/
theorem test_se_imm_top : (cycled 0 <| placed 0x3000 <| { State.reset with pc := 0x0FFE }).map
    (fun t => t.pc) = some 0x1002 := by decide

/-- T12. -/
theorem test_se_imm_not_taken : (cycled 0 <| placed 0x3A07 <| regs [(10, 0x08)] <| State.reset).map
    (fun t => t.pc) = some 0x0202 := by decide

/-- T15. -/
theorem test_sne_imm_taken : (cycled 0 <| placed 0x4A07 <| regs [(10, 0x08)] <| State.reset).map
    (fun t => t.pc) = some 0x0204 := by decide

/-- T14. -/
theorem test_sne_imm_not_taken : (cycled 0 <| placed 0x4A07 <| regs [(10, 0x07)] <| State.reset).map
    (fun t => t.pc) = some 0x0202 := by decide

/-- T18. -/
theorem test_se_reg_low_nibble : (cycled 0 <| placed 0x512F <| regs [(1, 0x33), (2, 0x33)] <| State.reset).map
    (fun t => t.pc) = some 0x0204 := by decide

/-- T17. -/
theorem test_se_reg_not_taken : (cycled 0 <| placed 0x5120 <| regs [(1, 0x33), (2, 0x34)] <| State.reset).map
    (fun t => t.pc) = some 0x0202 := by decide

/-- T22. -/
theorem test_sne_reg_low_nibble : (cycled 0 <| placed 0x9127 <| regs [(1, 0x01), (2, 0x02)] <| State.reset).map
    (fun t => t.pc) = some 0x0204 := by decide

/-- T21. -/
theorem test_sne_reg_not_taken : (cycled 0 <| placed 0x9120 <| regs [(1, 0x02), (2, 0x02)] <| State.reset).map
    (fun t => t.pc) = some 0x0202 := by decide

/-- T24. -/
theorem test_jp_v0_unmasked : (cycled 0 <| placed 0xBFFF <| regs [(0, 0xFF)] <| State.reset).map
    (fun t => t.pc) = some 0x10FE := by decide

/-! Load and arithmetic (42_load_alu.md): rows of 95_test_vectors.md part L2. -/

/-- A2. -/
theorem test_ld_imm_vf : (cycled 0 <| placed 0x6F12 <| regs [(15, 0x01)] <| State.reset).map
    (fun t => (t.reg 15, t.pc)) = some (0x12, 0x0202) := by decide

/-- A4. -/
theorem test_add_imm_wraps : (cycled 0 <| placed 0x7101 <| regs [(1, 0xFF), (15, 0x00)] <| State.reset).map
    (fun t => (t.reg 1, t.reg 15, t.pc)) = some (0x00, 0x00, 0x0202) := by decide

/-- A5. -/
theorem test_add_imm_vf : (cycled 0 <| placed 0x7FFF <| regs [(15, 0x02)] <| State.reset).map
    (fun t => (t.reg 15, t.pc)) = some (0x01, 0x0202) := by decide

/-- A6. -/
theorem test_ld_reg : (cycled 0 <| placed 0x8120 <| regs [(1, 0x01), (2, 0xAB)] <| State.reset).map
    (fun t => (t.reg 1, t.pc)) = some (0xAB, 0x0202) := by decide

/-- A8. -/
theorem test_or_keeps_vf : (cycled 0 <| placed 0x8121 <| regs [(1, 0xF0), (2, 0x0F), (15, 0x77)] <| State.reset).map
    (fun t => (t.reg 1, t.reg 15, t.pc)) = some (0xFF, 0x77, 0x0202) := by decide

/-- A12. -/
theorem test_or_vf : (cycled 0 <| placed 0x8F21 <| regs [(15, 0x80), (2, 0x01)] <| State.reset).map
    (fun t => (t.reg 15, t.pc)) = some (0x81, 0x0202) := by decide

/-- A9. -/
theorem test_and_keeps_vf : (cycled 0 <| placed 0x8122 <| regs [(1, 0xFC), (2, 0x3F), (15, 0x77)] <| State.reset).map
    (fun t => (t.reg 1, t.reg 15, t.pc)) = some (0x3C, 0x77, 0x0202) := by decide

/-- A10. -/
theorem test_xor_keeps_vf : (cycled 0 <| placed 0x8123 <| regs [(1, 0xFF), (2, 0x0F), (15, 0x77)] <| State.reset).map
    (fun t => (t.reg 1, t.reg 15, t.pc)) = some (0xF0, 0x77, 0x0202) := by decide

/-- A11. -/
theorem test_xor_self : (cycled 0 <| placed 0x8113 <| regs [(1, 0xC3)] <| State.reset).map
    (fun t => (t.reg 1, t.pc)) = some (0x00, 0x0202) := by decide

/-- A13. -/
theorem test_add_carry : (cycled 0 <| placed 0x8124 <| regs [(1, 0xFF), (2, 0x01)] <| State.reset).map
    (fun t => (t.reg 1, t.reg 15, t.pc)) = some (0x00, 0x01, 0x0202) := by decide

/-- A18. -/
theorem test_add_vf_destination : (cycled 0 <| placed 0x8F14 <| regs [(15, 0xF0), (1, 0x20)] <| State.reset).map
    (fun t => (t.reg 15, t.pc)) = some (0x01, 0x0202) := by decide

/-- A22. -/
theorem test_sub_equal : (cycled 0 <| placed 0x8125 <| regs [(1, 0x05), (2, 0x05), (15, 0x01)] <| State.reset).map
    (fun t => (t.reg 1, t.reg 15, t.pc)) = some (0x00, 0x00, 0x0202) := by decide

/-- A24. -/
theorem test_sub_borrow : (cycled 0 <| placed 0x8125 <| regs [(1, 0x03), (2, 0x0A), (15, 0x01)] <| State.reset).map
    (fun t => (t.reg 1, t.reg 15, t.pc)) = some (0xF9, 0x00, 0x0202) := by decide

/-- A31. -/
theorem test_shr_ignores_y : (cycled 0 <| placed 0x8126 <| regs [(1, 0x04), (2, 0xFF), (15, 0x01)] <| State.reset).map
    (fun t => (t.reg 1, t.reg 2, t.reg 15, t.pc)) = some (0x02, 0xFF, 0x00, 0x0202) := by decide

/-- A35. -/
theorem test_shr_vf : (cycled 0 <| placed 0x8F06 <| regs [(15, 0x06)] <| State.reset).map
    (fun t => (t.reg 15, t.pc)) = some (0x00, 0x0202) := by decide

/-- A37. -/
theorem test_subn_borrow : (cycled 0 <| placed 0x8127 <| regs [(1, 0x0A), (2, 0x03), (15, 0x01)] <| State.reset).map
    (fun t => (t.reg 1, t.reg 15, t.pc)) = some (0xF9, 0x00, 0x0202) := by decide

/-- A39. -/
theorem test_subn_vf : (cycled 0 <| placed 0x8F17 <| regs [(15, 0x02), (1, 0x05)] <| State.reset).map
    (fun t => (t.reg 15, t.pc)) = some (0x01, 0x0202) := by decide

/-- A41. -/
theorem test_shl_ignores_y : (cycled 0 <| placed 0x812E <| regs [(1, 0x40), (2, 0xFF), (15, 0x01)] <| State.reset).map
    (fun t => (t.reg 1, t.reg 2, t.reg 15, t.pc)) = some (0x80, 0xFF, 0x00, 0x0202) := by decide

/-- A44. -/
theorem test_shl_vf : (cycled 0 <| placed 0x8F0E <| regs [(15, 0xC0)] <| State.reset).map
    (fun t => (t.reg 15, t.pc)) = some (0x01, 0x0202) := by decide

/-- A46. -/
theorem test_rnd_masked : (cycled 0xA7 <| placed 0xC10F <| State.reset).map
    (fun t => (t.reg 1, t.pc)) = some (0x07, 0x0202) := by decide

/-- A48. -/
theorem test_rnd_mask_zero : (cycled 0xFF <| placed 0xC100 <| regs [(1, 0x11)] <| State.reset).map
    (fun t => (t.reg 1, t.pc)) = some (0x00, 0x0202) := by decide

/-! Index and memory (43_index_memory.md): rows of 95_test_vectors.md part L2. -/

/-- M2. -/
theorem test_ld_i : (cycled 0 <| placed 0xAFFF <| { State.reset with i := 0x1234 }).map
    (fun t => (t.i, t.pc)) = some (0x0FFF, 0x0202) := by decide

/-- M4. -/
theorem test_add_i_past_memory :
    (cycled 0 <| placed 0xF21E <| regs [(2, 0x01), (15, 0x00)] <| { State.reset with i := 0x0FFF }).map
    (fun t => (t.reg 15, t.i, t.pc)) = some (0x00, 0x1000, 0x0202) := by decide

/-- M5. -/
theorem test_add_i_wraps :
    (cycled 0 <| placed 0xF21E <| regs [(2, 0x01), (15, 0x00)] <| { State.reset with i := 0xFFFF }).map
    (fun t => (t.reg 15, t.i, t.pc)) = some (0x00, 0x0000, 0x0202) := by decide

/-- M11. -/
theorem test_ld_f_whole_byte : (cycled 0 <| placed 0xF329 <| regs [(3, 0xFF)] <| State.reset).map
    (fun t => (t.i, t.pc)) = some (0x04FB, 0x0202) := by decide

/-- M16. -/
theorem test_ld_b_top : (cycled 0 <| placed 0xF433 <| regs [(4, 0x64)] <| { State.reset with i := 0x0FFD }).map
    (fun t => (t.pc, Memory.read t.mem 0xFFD, Memory.read t.mem 0xFFE, Memory.read t.mem 0xFFF))
      = some (0x0202, 0x01, 0x00, 0x00) := by decide

/-- M17. -/
theorem test_ld_b_range : (cycled 0 <| placed 0xF433 <| regs [(4, 0xC7)] <| { State.reset with i := 0x0FFE }).map
    (fun t => (t.pc, Memory.read t.mem 0xFFE, Memory.read t.mem 0xFFF, t.fault))
      = some (0x0202, 0x00, 0x00, some (.memoryRange 0x0200 0xF433 0x0FFE 3)) := by decide

/-- M20. -/
theorem test_store_regs :
    (cycled 0 <| placed 0xF255 <| regs [(0, 0x11), (1, 0x22), (2, 0x33), (3, 0x44)] <| { State.reset with i := 0x0400 }).map
    (fun t => (t.i, t.pc, Memory.read t.mem 0x400, Memory.read t.mem 0x401, Memory.read t.mem 0x402))
      = some (0x0400, 0x0202, 0x11, 0x22, 0x33) := by decide

/-- M25. -/
theorem test_store_regs_range :
    (cycled 0 <| placed 0xF155 <| regs [(0, 0x99), (1, 0x98)] <| { State.reset with i := 0x0FFF }).map
    (fun t => (t.pc, Memory.read t.mem 0xFFF, t.fault))
      = some (0x0202, 0x00, some (.memoryRange 0x0200 0xF155 0x0FFF 2)) := by decide

/-- M29. -/
theorem test_load_regs_top :
    (cycled 0 <| poked [(0xFFF, 0x5A)] <| placed 0xF065 <| regs [(0, 0x01), (1, 0x02)] <| { State.reset with i := 0x0FFF }).map
    (fun t => (t.reg 0, t.reg 1, t.pc)) = some (0x5A, 0x02, 0x0202) := by decide

/-- M28. -/
theorem test_load_regs_range :
    (cycled 0 <| poked [(0xFFF, 0x5A)] <| placed 0xF165 <| regs [(0, 0x01), (1, 0x02)] <| { State.reset with i := 0x0FFF }).map
    (fun t => (t.reg 0, t.reg 1, t.pc, t.fault))
      = some (0x01, 0x02, 0x0202, some (.memoryRange 0x0200 0xF165 0x0FFF 2)) := by decide

/-! Display (44_display.md): rows of 95_test_vectors.md part L2. -/

/-- G1. -/
theorem test_cls_keeps_vf :
    (cycled 0 <| placed 0x00E0 <| regs [(15, 0x01)] <| { State.reset with fb := lit [(0, 0), (31, 63), (10, 20)] }).map
    (fun t => (t.reg 15, t.pc, t.fb)) = some (0x01, 0x0202, lit []) := by decide

/-- G4. -/
theorem test_drw_right_edge :
    (cycled 0 <| poked [(0x300, 0xFF)] <| placed 0xD121 <| regs [(1, 0x3C), (2, 0x00)] <| { State.reset with i := 0x0300 }).map
    (fun t => (t.reg 15, t.pc, t.fb)) = some (0x00, 0x0202, lit [(0, 60), (0, 61), (0, 62), (0, 63)]) := by decide

/-- G8. -/
theorem test_drw_collision :
    (cycled 0 <| poked [(0x300, 0xC0)] <| placed 0xD121 <| regs [(1, 0x00), (2, 0x00), (15, 0x00)] <| { State.reset with i := 0x0300, fb := lit [(0, 1)] }).map
    (fun t => (t.reg 15, t.pc, t.fb)) = some (0x01, 0x0202, lit [(0, 0)]) := by decide

/-! Keypad and timers (45_keypad_timers.md): rows of 95_test_vectors.md part L2. -/

/-- K1. -/
theorem test_skp_taken :
    (cycled 0 <| placed 0xE39E <| regs [(3, 0x0B)] <| { State.reset with key := State.reset.key.set 11 true }).map
    (fun t => t.pc) = some 0x0204 := by decide

/-- K3. -/
theorem test_skp_index :
    (cycled 0 <| placed 0xE39E <| regs [(3, 0x10)] <| { State.reset with key := State.reset.key.set 0 true }).map
    (fun t => (t.pc, t.fault)) = some (0x0202, some (.keyIndex 0x0200 0xE39E 0x10)) := by decide

/-- K4. -/
theorem test_sknp_taken : (cycled 0 <| placed 0xE3A1 <| regs [(3, 0x0B)] <| State.reset).map
    (fun t => t.pc) = some 0x0204 := by decide

/-- K6. -/
theorem test_sknp_index : (cycled 0 <| placed 0xE3A1 <| regs [(3, 0xFF)] <| State.reset).map
    (fun t => (t.pc, t.fault)) = some (0x0202, some (.keyIndex 0x0200 0xE3A1 0xFF)) := by decide

/-- K8. -/
theorem test_ld_vx_dt_vf : (cycled 0 <| placed 0xFF07 <| regs [(15, 0x01)] <| { State.reset with dt := 0x3C }).map
    (fun t => (t.reg 15, t.pc)) = some (0x3C, 0x0202) := by decide

/-- K9. -/
theorem test_ld_vx_k_waits : (cycled 0 <| placed 0xF50A <| regs [(5, 0x77)] <| { State.reset with pc := 0x0210 }).map
    (fun t => (t.reg 5, t.pc, t.mode)) = some (0x77, 0x0210, .awaitingKey 5) := by decide

/-- K13. -/
theorem test_ld_vx_k_key :
    (cycled 0 <| placed 0xF00A <| regs [(0, 0x33)] <| { State.reset with pc := 0x0210, key := State.reset.key.set 0 true }).map
    (fun t => (t.reg 0, t.pc)) = some (0x00, 0x0212) := by decide

/-- K14. -/
theorem test_ld_dt_vx : (cycled 0 <| placed 0xF615 <| regs [(6, 0x3C)] <| State.reset).map
    (fun t => (t.pc, t.dt, t.st)) = some (0x0202, 0x3C, 0x00) := by decide

/-- K16. -/
theorem test_ld_st_vx : (cycled 0 <| placed 0xF718 <| regs [(7, 0x02)] <| State.reset).map
    (fun t => (t.pc, t.dt, t.st)) = some (0x0202, 0x00, 0x02) := by decide

/-! Fetch and decode (40_dispatch.md): rows of 95_test_vectors.md part L2. -/

/-- T27. -/
theorem test_fetch_range : (cycled 0 <| { State.reset with pc := 0x10FE }).map
    (fun t => t.fault) = some (some (.fetchRange 0x10FE)) := by decide

/-- T28. -/
theorem test_fetch_last_word : (cycled 0 <| placed 0x6A55 <| { State.reset with pc := 0x0FFE }).map
    (fun t => (t.reg 10, t.pc)) = some (0x55, 0x1000) := by decide

/-- T29. -/
theorem test_fetch_odd : (cycled 0 <| placed 0x6B77 <| { State.reset with pc := 0x0205 }).map
    (fun t => (t.reg 11, t.pc)) = some (0x77, 0x0207) := by decide

/-- X1. -/
theorem test_zero_word_faults : (cycled 0 <| placed 0x0000 <| State.reset).map
    (fun t => (t.pc, t.fault)) = some (0x0202, some (.decode 0x0200 0x0000)) := by decide

/-- X8. -/
theorem test_family8_faults : (cycled 0 <| placed 0x8128 <| State.reset).map
    (fun t => (t.pc, t.fault)) = some (0x0202, some (.decode 0x0200 0x8128)) := by decide

/-! Events: rows of 95_test_vectors.md part L2, E. -/

/-- E2. -/
theorem test_tick : (stepped (given .tick { State.reset with st := 1 })).map (fun t => (t.dt, t.st, t.toneActive))
    = some (0, 0, false) := by decide

/-- E6. -/
theorem test_tick_halted :
    (stepped (given .tick { State.reset with fault := some (.decode 0x200 0x0000), dt := 9 })).map (fun t => (t.dt, t.fault))
      = some (9, some (.decode 0x200 0x0000)) := by decide

/-- E7. -/
theorem test_set_key_halted :
    (stepped (given (.setKey 3 true) { State.reset with fault := some (.decode 0x200 0x0000) })).map (fun t => t.key[3])
      = some true := by decide

/-- E8. -/
theorem test_reset_leaves_fault :
    (stepped (given .reset { State.reset with fault := some (.decode 0x200 0x0000), pc := 0x202 })).map
      (fun t => (t.fault, t.pc)) = some (none, 0x200) := by decide

/-- E13. -/
theorem test_load_rom_one_byte :
    ((stepped (given (.loadRom [0x12]) State.reset)).bind (cycled 0)).map (fun t => t.pc) = some 0x200 := by decide

/-- S1: the last glyph byte, and the first byte after the table. -/
theorem test_glyph_table : Memory.read State.reset.mem 0x4F = 0x80 ∧ Memory.read State.reset.mem 0x50 = 0 := by decide

/-- R34, R39: the status port's codes. -/
theorem test_fault_code :
    State.reset.faultCode = 0 ∧ State.faultCode { State.reset with fault := some (.keyIndex 0x200 0xE39E 0x10) } = 6 := by
  decide

/-! Witnesses: for each statement with hypotheses, states and operands that meet them, clause by clause at the ends of each
range. A witness is named after its statement. -/

/-- A halted state, its fault true of it. -/
def haltedState : State :=
  { State.reset with pc := 0xFFF, fault := some (.fetchRange 0xFFF), host := { State.reset.host with bootOpen := false } }

/-- A state that waits for a key in register 5. -/
def waitingState : State :=
  placed 0xF50A
    { State.reset with mode := .awaitingKey 5, host := { State.reset.host with bootOpen := false } }

theorem haltedState_fits : FaultInv haltedState := fun f hf => by
  obtain rfl : Fault.fetchRange 0xFFF = f := Option.some.inj hf
  exact ⟨⟨by decide, rfl⟩, rfl⟩

theorem waitingState_fits : WaitInv waitingState := fun x hx => by
  obtain rfl : (5 : RegNum) = x := Mode.awaitingKey.inj hx
  exact ⟨rfl, rfl, by decide, rfl⟩

/-- Halted by an `Fx65` that would read past the end of memory. -/
def rangeFaulted : State :=
  let s := placed 0xF165 { State.reset with i := 0xFFF }
  { s with
    pc := 0x202
    fault := some (.memoryRange 0x200 0xF165 0xFFF 2)
    host := { s.host with bootOpen := false } }

theorem rangeFaulted_fits : FaultInv rangeFaulted := by
  intro f hf
  obtain rfl : Fault.memoryRange 0x200 0xF165 0xFFF 2 = f := Option.some.inj hf
  exact ⟨⟨⟨by decide, by decide, rfl⟩, ⟨.loadRegs 1, rfl, rfl⟩, by decide, rfl, by decide⟩, rfl⟩

/-- The host issues cycles only, with bytes of its own. -/
def cycling (s : State) : State := { s with host := { s.host with inputs := [], schedule := .cyclesOnly } }

theorem witness_StepPerformsOldestEvent :
    (given .tick State.reset).host.inputs = .tick :: []
      ∧ State.reset.host.inputs = [] ∧ State.reset.host.schedule = .any
      ∧ (cycling State.reset).host.inputs = [] ∧ (cycling State.reset).host.schedule = .cyclesOnly :=
  ⟨rfl, rfl, rfl, rfl, rfl⟩

/-- An interleaving of cycles and ticks by turns. -/
def alternating (n : Nat) : RunEvent := if n % 2 = 0 then .cycle 0 else .tick

theorem alternating_tick (n : Nat) : hostEventOf (alternating (2 * n + 1)) = .tick := by
  rw [alternating, if_neg (by omega), hostEventOf]

theorem witness_EveryInterleavingExecutes_TickFair : TickFair fun n => hostEventOf (alternating n) :=
  fun _ n => ⟨2 * n + 1, by omega, alternating_tick n⟩

/-- From reset; the premise of its last clause is about a free value, and the theorem above meets it for one value. -/
theorem witness_FreeHostRunsForEver : State.reset.host.inputs = [] ∧ State.reset.host.schedule = .any := ⟨rfl, rfl⟩

/-- At the last address that can be fetched from. -/
theorem witness_StepRunsDecoded :
    let s := placed 0x6A55 { State.reset with pc := 0xFFE }
    s.fault = none ∧ s.pc.toNat ≤ 0xFFE
      ∧ decodeWord (wordOfBytes (Memory.read s.mem s.pc.toNat) (Memory.read s.mem (s.pc.toNat + 1))) = .ok (.ldImm 0xA 0x55)
      ∧ (given (.cycle 7) s).host.inputs = .cycle 7 :: []
      ∧ (cycling s).host.inputs = [] ∧ (cycling s).host.schedule = .cyclesOnly :=
  ⟨rfl, by decide, rfl, rfl, rfl, rfl⟩

theorem witness_FetchRangeFaults :
    let s := { State.reset with pc := 0xFFF }
    s.fault = none ∧ s.pc.toNat > 0xFFE := ⟨rfl, by decide⟩

theorem witness_DecodeFaults :
    let s := { State.reset with pc := 0xFFE }
    s.fault = none ∧ s.pc.toNat ≤ 0xFFE ∧ illegalWord s.fetchWord = true := ⟨rfl, by decide, by decide⟩

theorem witness_HaltedMachineStands : haltedState.fault = some (.fetchRange 0xFFF) := rfl

theorem witness_FaultIsTerminal :
    FaultInv (given (.cycle 0) haltedState) ∧ (given (.cycle 0) haltedState).fault = some (.fetchRange 0xFFF)
      ∧ (∃ t, step (given (.cycle 0) haltedState) = .next t) ∧ nextEvent (given (.cycle 0) haltedState) ≠ .reset
      ∧ ∀ k b, nextEvent (given (.cycle 0) haltedState) ≠ .setKey k b :=
  ⟨haltedState_fits, rfl, ⟨_, rfl⟩, by decide, fun _ _ h => HostEvent.noConfusion h⟩

theorem witness_TickDecrements : State.reset.fault = none ∧ haltedState.fault ≠ none := by decide

theorem witness_TimerLaw :
    let s := { State.reset with host := { State.reset.host with inputs := [.tick, .tick, .tick, .cycle 0] } }
    s.fault = none ∧ s.host.inputs = List.replicate 3 .tick ++ [.cycle 0] := ⟨rfl, rfl⟩

/-- The largest image and one byte more. -/
theorem witness_LoadRomCopies :
    State.reset.host.bootOpen = true ∧ (List.replicate 3584 (0 : Byte)).length ≤ 3584
      ∧ (List.replicate 3585 (0 : Byte)).length > 3584 ∧ Memory.wf State.reset.mem :=
  ⟨rfl, Nat.le_of_eq List.length_replicate, by rw [List.length_replicate]; decide, by decide⟩

theorem witness_LoadRomOnlyAtBoot :
    haltedState.host.bootOpen = false ∧ State.reset.fault = none ∧ (∃ t, eventStep .tick State.reset = .next t)
      ∧ (∃ t, eventStep (.cycle 0) State.reset = .next t)
      ∧ ([0x12] : List Byte).length ≤ 3584 ∧ ∃ t, eventStep (.loadRom [0x12]) State.reset = .next t :=
  ⟨rfl, rfl, ⟨_, rfl⟩, ⟨_, rfl⟩, by decide, ⟨_, rfl⟩⟩

/-- The empty image and the largest. -/
theorem witness_LaunchFromReset :
    ([] : List Byte).length ≤ 3584 ∧ (List.replicate 3584 (0x12 : Byte)).length ≤ 3584 :=
  ⟨by decide, Nat.le_of_eq List.length_replicate⟩

theorem witness_SelfJumpIsFinal : Finished (placed 0x1200 State.reset) := ⟨rfl, rfl, by decide⟩

/-- At the top of memory. -/
theorem witness_FetchSeesStores :
    let s := { State.reset with pc := 0xFFE, i := 0xFFE }
    Memory.wf s.mem ∧ s.i = s.pc ∧ 1 ≤ (1 : RegNum).toNat ∧ s.pc.toNat + (1 : RegNum).toNat ≤ 0xFFF := by decide

theorem witness_EncodeOfDecode : decodeWord 0x512F = .ok (.seReg 0x1 0x2) := rfl

theorem witness_EveryWordOneRow :
    decodeWord 0x8AB4 = .ok (.addReg 0xA 0xB) ∧ (0x8AB4 : Word) &&& (Instr.addReg 0 0).mask = (Instr.addReg 0 0).pattern :=
  ⟨rfl, by decide⟩

/-- A store into the last three bytes. -/
theorem witness_StepKeepsMemoryForm :
    let s := given (.cycle 0) (placed 0xF433 <| regs [(4, 0x64)] <| { State.reset with i := 0xFFD })
    MemoryInv s ∧ ∃ t, step s = .next t := ⟨by unfold MemoryInv; decide, ⟨_, rfl⟩⟩

/-- The largest `pc`, and the full stack. -/
theorem witness_StepKeepsPcBound :
    let s := given (.cycle 0) { State.reset with pc := 0x10FE, sp := 16, stack := Vector.replicate 16 0x1000 }
    PcInv s ∧ ∃ t, step s = .next t := ⟨⟨by decide, by decide⟩, ⟨_, rfl⟩⟩

theorem witness_StepKeepsWait :
    WaitInv (given (.cycle 0) waitingState) ∧ ∃ t, step (given (.cycle 0) waitingState) = .next t :=
  ⟨waitingState_fits, ⟨_, rfl⟩⟩

/-- A fault without an opcode and one with. -/
theorem witness_StepKeepsFaultRecord :
    FaultInv (given (.setKey 3 true) haltedState) ∧ (∃ t, step (given (.setKey 3 true) haltedState) = .next t)
      ∧ FaultInv (given .tick rangeFaulted) ∧ ∃ t, step (given .tick rangeFaulted) = .next t :=
  ⟨haltedState_fits, ⟨_, rfl⟩, rangeFaulted_fits, ⟨_, rfl⟩⟩

theorem witness_InstructionFrames : ∃ t, exec (.addReg 1 2) State.reset = .next t := ⟨_, rfl⟩

theorem witness_FaultsArePrecise :
    State.reset.fault = none ∧ exec .ret State.reset = .next (landed State.reset (exec .ret State.reset))
      ∧ (landed State.reset (exec .ret State.reset)).fault ≠ none := ⟨rfl, rfl, by decide⟩

/-- A fault with an opcode, and the one without. -/
theorem witness_FaultRecordsInstruction :
    let s := given (.cycle 0) (placed 0x00EE State.reset)
    let u := given (.cycle 0) { State.reset with pc := 0xFFF }
    (s.fault = none ∧ step s = .next (landed s (step s))
        ∧ (landed s (step s)).fault = some (.stackUnderflow 0x200 0x00EE)
        ∧ (Fault.stackUnderflow 0x200 0x00EE).opcode = some 0x00EE)
      ∧ (u.fault = none ∧ step u = .next (landed u (step u))
        ∧ (landed u (step u)).fault = some (.fetchRange 0xFFF)) :=
  ⟨⟨rfl, rfl, by decide, rfl⟩, ⟨rfl, rfl, by decide⟩⟩

/-- A fault, a wait, a completed instruction. -/
theorem witness_ModeAfterInstruction :
    (State.reset.fault = none ∧ exec .ret State.reset = .next (landed State.reset (exec .ret State.reset))
        ∧ (landed State.reset (exec .ret State.reset)).fault ≠ none)
      ∧ (exec (.ldVxK 5) State.reset = .next (landed State.reset (exec (.ldVxK 5) State.reset))
        ∧ ∀ k : Fin 16, State.reset.key[k.val] = false)
      ∧ (exec .cls State.reset = .next (landed State.reset (exec .cls State.reset))
        ∧ (landed State.reset (exec .cls State.reset)).fault = none
        ∧ ∀ x, Instr.cls = .ldVxK x → ∃ k : Fin 16, State.reset.key[k.val] = true) :=
  ⟨⟨rfl, rfl, by decide⟩, ⟨rfl, by decide⟩, ⟨rfl, by decide, fun _ h => Instr.noConfusion h⟩⟩

theorem witness_ModeNeverRead :
    (∃ t, step (given (.cycle 0) waitingState) = .next t)
      ∧ step (given (.loadRom []) waitingState) = .refused .loadOutsideBoot := ⟨⟨_, rfl⟩, rfl⟩

theorem witness_InputsReadOnlyWhereNamed :
    (∃ t, exec .cls State.reset = .next t) ∧ (∀ x kk, Instr.cls ≠ .rnd x kk)
      ∧ (∀ x, Instr.cls ≠ .skp x ∧ Instr.cls ≠ .sknp x ∧ Instr.cls ≠ .ldVxK x)
      ∧ (∀ x, Instr.cls ≠ .ldVxDt x ∧ Instr.cls ≠ .ldDtVx x) ∧ (∀ x, Instr.cls ≠ .ldStVx x) :=
  ⟨⟨_, rfl⟩, fun _ _ h => Instr.noConfusion h,
    fun _ => ⟨fun h => Instr.noConfusion h, fun h => Instr.noConfusion h, fun h => Instr.noConfusion h⟩,
    fun _ => ⟨fun h => Instr.noConfusion h, fun h => Instr.noConfusion h⟩, fun _ h => Instr.noConfusion h⟩

theorem witness_KeysAndTimersChange :
    let s := given (.cycle 0) (placed 0x00E0 State.reset)
    (∃ t, step s = .next t) ∧ nextEvent s ≠ .reset ∧ (∀ k b, nextEvent s ≠ .setKey k b) ∧ nextEvent s ≠ .tick
      ∧ (∀ x, decodeWord s.fetchWord ≠ .ok (.ldDtVx x)) ∧ (∀ x, decodeWord s.fetchWord ≠ .ok (.ldStVx x)) :=
  ⟨⟨_, rfl⟩, by decide, fun _ _ h => HostEvent.noConfusion h, by decide,
    fun _ h => Instr.noConfusion (Except.ok.inj (show Except.ok Instr.cls = _ from h)),
    fun _ h => Instr.noConfusion (Except.ok.inj (show Except.ok Instr.cls = _ from h))⟩

theorem witness_RandomMasked :
    State.reset.host.rnd = 0 ∧ ∃ t, exec (.rnd 1 0x0F) State.reset = .next t := ⟨rfl, ⟨_, rfl⟩⟩

/-- The highest legal `I` and the next. -/
theorem witness_StoreBcd :
    State.i { State.reset with i := 0xFFD } = 0xFFD ∧ (0xFFD : Word).toNat + 2 ≤ 0xFFF ∧ (0xFFE : Word).toNat + 2 > 0xFFF
      ∧ Memory.wf State.reset.mem := by decide

/-- All sixteen registers at the highest legal `I` and at the next. -/
theorem witness_StoreRegisters :
    (0xFF0 : Word).toNat + (15 : RegNum).toNat ≤ 0xFFF ∧ (0xFF1 : Word).toNat + (15 : RegNum).toNat > 0xFFF
      ∧ (14 : RegNum).toNat ≤ (15 : RegNum).toNat ∧ Memory.wf State.reset.mem := by decide

/-- A register on each side of `x`, and `I` on each side of the range. -/
theorem witness_LoadRegisters :
    (0xFFF : Word).toNat + (0 : RegNum).toNat ≤ 0xFFF ∧ (0xFFF : Word).toNat + (1 : RegNum).toNat > 0xFFF
      ∧ (0 : RegNum).toNat ≤ (0 : RegNum).toNat ∧ (0 : RegNum).toNat < (1 : RegNum).toNat := by decide

theorem witness_MemoryRangeFaults :
    (0xFFE : Word).toNat + 3 - 1 > 0xFFF ∧ (0xFFF : Word).toNat + ((1 : RegNum).toNat + 1) - 1 > 0xFFF
      ∧ 1 ≤ (2 : BitVec 4).toNat ∧ (0xFFF : Word).toNat + (2 : BitVec 4).toNat - 1 > 0xFFF
      ∧ ∃ t, exec (.loadRegs 1) { State.reset with i := 0xFFF } = .next t
        ∧ t.fault = some (.memoryRange 0x1FE 0xF165 0xFFF 2) :=
  ⟨by decide, by decide, by decide, by decide, ⟨_, rfl, by decide⟩⟩

/-- The last byte of memory, the empty sprite, one byte too many; a collision and none. -/
theorem witness_DrawSprite :
    SpriteInRange { State.reset with i := 0xFFF } 1 ∧ SpriteInRange { State.reset with i := 0x1234 } 0
      ∧ ¬SpriteInRange { State.reset with i := 0xFFF } 2
      ∧ (let s := { State.reset with fb := lit [(0, 0)] }
        ∃ r c, r < 32 ∧ c < 64 ∧ spriteBit s 1 2 5 r c = true ∧ s.pixel r c = true)
      ∧ ¬∃ r c, r < 32 ∧ c < 64 ∧ spriteBit State.reset 1 2 0 r c = true ∧ State.reset.pixel r c = true :=
  ⟨.inr (by decide), .inl rfl, fun h => h.elim (by decide) (by decide), ⟨0, 0, by decide, by decide, by decide, by decide⟩,
    fun ⟨r, _, _, _, h, _⟩ => by
      simp only [spriteBit, Bool.and_eq_true, decide_eq_true_eq] at h
      have := h.1.1
      have := h.1.2.1
      change r < 0 + 0 at this
      omega⟩

/-- The flag-writing instructions (WritesRegFlag): a destination other than `VF`. -/
theorem witness_AddRegisters_Subtractions_Shifts : (14 : RegNum) ≠ 15 := by decide

theorem witness_DrawTwiceRestores :
    let s := State.reset
    let t := landed s (exec (.drw 1 2 5) s)
    SpriteInRange s 5 ∧ exec (.drw 1 2 5) s = .next t ∧ t.i = s.i
      ∧ (∀ a, Memory.read t.mem a = Memory.read s.mem a)
      ∧ t.reg 1 &&& 63 = s.reg 1 &&& 63 ∧ t.reg 2 &&& 31 = s.reg 2 &&& 31 :=
  ⟨.inr (by decide), rfl, rfl, fun _ => rfl, by decide, by decide⟩

/-- The last free frame, another frame of the store, and the full stack. -/
theorem witness_CallPushes :
    (15 : Fin 17).val < 16 ∧ 14 ≠ (15 : Fin 17).val ∧ State.sp { State.reset with sp := 16 } = 16
      ∧ (16 : Fin 17).val = 16 := by decide

theorem witness_ReturnPops : (16 : Fin 17).val = 15 + 1 ∧ (1 : Fin 17).val = 0 + 1 ∧ State.reset.sp.val = 0 := by decide

theorem witness_CallThenReturn :
    let s := { State.reset with sp := 15 }
    s.sp.val < 16 ∧ ∃ t, exec (.call 0x300) s = .next t := ⟨by decide, ⟨_, rfl⟩⟩

theorem witness_KeySkips :
    ((State.reset.setReg 3 15).reg 3).toNat = (15 : Fin 16).val ∧ ((State.reset.setReg 3 16).reg 3).toNat > 15 := by decide

theorem witness_WaitForKey :
    (∃ k : Fin 16, State.key { State.reset with key := State.reset.key.set 15 true } = State.reset.key.set k.val true
      ∧ (State.reset.key.set 15 true)[k.val] = true) ∧ ∀ k : Fin 16, State.reset.key[k.val] = false :=
  ⟨⟨15, rfl, by decide⟩, by decide⟩

end Sys2Proof.Tests
end

section
/-! PROOFS of the family 00_scope.md: the event a step performs, and the infinite runs of the machine. -/

namespace Sys2Proof.Machine

/-! The event the host issues next. -/

@[simp] theorem scheduled_any (n : Nat) : scheduled .any n = hostEventOf (Config.freeEvent n) := rfl

@[simp] theorem scheduled_cyclesOnly (n : Nat) : scheduled .cyclesOnly n = .cycle (Config.freeRnd n) := rfl

theorem takeEvent_of_inputs_cons {s : State} {e : HostEvent} {es : List HostEvent} (h : s.host.inputs = e :: es) :
    takeEvent s = (e, { s with host := { s.host with inputs := es } }) := by
  simp only [takeEvent, h]

theorem takeEvent_of_inputs_nil {s : State} (h : s.host.inputs = []) :
    takeEvent s = (scheduled s.host.schedule s.host.freeCount,
      { s with host := { s.host with freeCount := s.host.freeCount + 1 } }) := by
  simp only [takeEvent, h]

theorem step_of_inputs_cons {s : State} {e : HostEvent} {es : List HostEvent} (h : s.host.inputs = e :: es) :
    step s = eventStep e { s with host := { s.host with inputs := es } } := by
  rw [step_eq, takeEvent_of_inputs_cons h]

theorem step_of_inputs_nil {s : State} (h : s.host.inputs = []) :
    step s = eventStep (scheduled s.host.schedule s.host.freeCount)
      { s with host := { s.host with freeCount := s.host.freeCount + 1 } } := by
  rw [step_eq, takeEvent_of_inputs_nil h]

/-- Settles O2: a list that is not empty gives its head; an empty one leaves the event to the schedule, whose two values are
the two remaining clauses. -/
theorem stepPerformsOldestEvent : Obligations.StepPerformsOldestEvent := by
  intro s
  refine ⟨fun e es h => step_of_inputs_cons h, fun h hany => ?_, fun h hcycles => ?_⟩
  · rw [step_of_inputs_nil h, hany, scheduled_any]
  · exact ⟨Config.freeRnd s.host.freeCount, by rw [step_of_inputs_nil h, hcycles, scheduled_cyclesOnly]⟩

/-! The states that a sequence of transitions goes through. -/

/-- The state a transition from `s` leaves: its next state, or `s` where it has none. -/
def Result.stateFrom (s : State) : Result → State
  | .next t => t
  | .fault _ | .refused _ => s

/-- The states from `s` on when the `n`-th transition is `move n`. -/
def statesAlong (move : Nat → State → Result) (s : State) : Nat → State
  | 0 => s
  | n + 1 => Result.stateFrom (statesAlong move s n) (move n (statesAlong move s n))

theorem statesAlong_succ_of_next {move : Nat → State → Result} {s t : State} {n : Nat}
    (h : move n (statesAlong move s n) = .next t) : statesAlong move s (n + 1) = t := by
  rw [statesAlong, h, Result.stateFrom]

theorem statesAlong_move {move : Nat → State → Result} {s : State} {n : Nat}
    (h : ∃ t, move n (statesAlong move s n) = .next t) :
    move n (statesAlong move s n) = .next (statesAlong move s (n + 1)) := by
  obtain ⟨t, ht⟩ := h
  rw [statesAlong_succ_of_next ht, ht]

/-- Settles O3: no event of a run is refused, so the states along the events are an execution of them. -/
theorem everyInterleavingExecutes : Obligations.EveryInterleavingExecutes := by
  intro events s
  exact ⟨statesAlong (fun n => eventStep (hostEventOf (events n))) s, rfl,
    fun n => statesAlong_move (eventStep_run_next (events n) _)⟩

/-! A host that no list binds. -/

/-- The host's next event is the `n`-th free one: it has no list, and the schedule `any` has supplied `n` events. -/
def FreeHostAt (n : Nat) (s : State) : Prop :=
  s.host.inputs = [] ∧ s.host.schedule = .any ∧ s.host.freeCount = n

theorem FreeHostAt.nextEvent_eq {n : Nat} {s : State} (h : FreeHostAt n s) :
    nextEvent s = hostEventOf (Config.freeEvent n) := by
  obtain ⟨hinputs, hany, hcount⟩ := h
  rw [nextEvent, takeEvent_of_inputs_nil hinputs, hany, hcount, scheduled_any]

/-- The step of a free host is never refused and leaves the host at its next free event. -/
theorem FreeHostAt.step_next {n : Nat} {s : State} (h : FreeHostAt n s) :
    ∃ t, step s = .next t ∧ FreeHostAt (n + 1) t := by
  obtain ⟨hinputs, hany, hcount⟩ := h
  have hstep := step_of_inputs_nil hinputs
  rw [hany, scheduled_any] at hstep
  obtain ⟨t, ht⟩ := eventStep_run_next (Config.freeEvent s.host.freeCount)
    { s with host := { s.host with freeCount := s.host.freeCount + 1 } }
  obtain ⟨htInputs, htSchedule, htCount⟩ := eventStep_plan _ _ t ht
  exact ⟨t, hstep.trans ht, htInputs.trans hinputs, htSchedule.trans hany, htCount.trans (congrArg (· + 1) hcount)⟩

theorem FreeHostAt.statesAlong_step {k : Nat} {s : State} (h : FreeHostAt k s) (n : Nat) :
    FreeHostAt (k + n) (statesAlong (fun _ => step) s n) := by
  induction n with
  | zero => exact h
  | succ n ih =>
    obtain ⟨t, hstep, ht⟩ := ih.step_next
    rw [statesAlong_succ_of_next hstep]
    exact ht

/-- Settles O4: every state along the steps has a free host, whose count has advanced once per step. -/
theorem freeHostRunsForEver : Obligations.FreeHostRunsForEver := by
  intro s hinputs hany
  have hfree := FreeHostAt.statesAlong_step (s := s) ⟨hinputs, hany, rfl⟩
  have hrun : RunOf (statesAlong (fun _ => step) s) := fun n =>
    statesAlong_move ((hfree n).step_next.imp fun _ ht => ht.1)
  have hevents := fun n => (hfree n).nextEvent_eq
  refine ⟨_, rfl, hrun, hevents, fun hfair => ⟨hrun, ?_⟩⟩
  rwa [funext hevents]

end Sys2Proof.Machine
end

section
/-! PROOFS of the family 10_state.md: what a handler can do and leaves alone, the invariants that every step keeps, and what
`mode`, the keypad and the timers depend on. -/

namespace Sys2Proof

/-! What a word decodes to, read backwards (30_encoding.md R95 to R99). -/

theorem formXKK_fields (w : Word) : formXKK (fieldOp w) (fieldX w) (fieldKK w) = w := by
  generalize hop : fieldOp w = op
  generalize hx : fieldX w = x
  rw [word_eq_nibbles w, fieldKK_formXYN, formXKK_nibbles, hop, hx]

theorem formNNN_fields (w : Word) : formNNN (fieldOp w) (fieldNNN w) = w := by
  apply BitVec.eq_of_getLsbD_eq
  intro i hi
  simp only [formNNN, fieldOp, fieldNNN, BitVec.getLsbD_append, BitVec.getLsbD_extractLsb']
  rcases lt_or_ge i 12 with h | h
  · simp [h]
  · simp [show ¬ i < 12 by omega, show i - 12 < 4 by omega, show 12 + (i - 12) = i by omega]

theorem nibble_cases (a : BitVec 4) :
    a = 0x0 ∨ a = 0x1 ∨ a = 0x2 ∨ a = 0x3 ∨ a = 0x4 ∨ a = 0x5 ∨ a = 0x6 ∨ a = 0x7
      ∨ a = 0x8 ∨ a = 0x9 ∨ a = 0xA ∨ a = 0xB ∨ a = 0xC ∨ a = 0xD ∨ a = 0xE ∨ a = 0xF := by
  revert a
  decide

section
variable {w : Word} {i : Instr} {e : DecodeReject}

theorem encode_of_decode0 (h : decode0 w = .ok i) : encode i = w := by
  rw [decode0] at h
  split_ifs at h with hw hw <;> cases h <;> exact hw.symm

theorem encode_of_decode8 (hop : fieldOp w = 0x8) (h : decode8 w = .ok i) : encode i = w := by
  have hform := word_eq_nibbles w
  rw [hop] at hform
  simp only [decode8] at h
  repeat' split at h
  all_goals cases h
  all_goals
    rw [‹fieldN w = _›] at hform
    exact hform.symm

theorem encode_of_decodeE (hop : fieldOp w = 0xE) (h : decodeE w = .ok i) : encode i = w := by
  have hform := formXKK_fields w
  rw [hop] at hform
  rw [decodeE] at h
  repeat' split at h
  all_goals cases h
  all_goals
    rw [‹fieldKK w = _›] at hform
    exact hform

theorem encode_of_decodeF (hop : fieldOp w = 0xF) (h : decodeF w = .ok i) : encode i = w := by
  have hform := formXKK_fields w
  rw [hop] at hform
  simp only [decodeF] at h
  repeat' split at h
  all_goals cases h
  all_goals
    rw [‹fieldKK w = _›] at hform
    exact hform

/-- A word is the encoding of what it decodes to, but in families 5 and 9, whose low nibble is not examined (30_encoding.md
R97). -/
theorem encode_of_decodeWord (h : decodeWord w = .ok i) (hexact : ∀ x y, i ≠ .seReg x y ∧ i ≠ .sneReg x y) :
    encode i = w := by
  have hNNN := formNNN_fields w
  have hXKK := formXKK_fields w
  have hXYN := word_eq_nibbles w
  rcases nibble_cases (fieldOp w) with hop | hop | hop | hop | hop | hop | hop | hop
    | hop | hop | hop | hop | hop | hop | hop | hop
  all_goals
    simp only [decodeWord, hop, BitVec.reduceEq, ↓reduceIte] at h
    rw [hop] at hNNN hXKK hXYN
  · exact encode_of_decode0 h
  · cases h; exact hNNN
  · cases h; exact hNNN
  · cases h; exact hXKK
  · cases h; exact hXKK
  · cases h; exact absurd rfl (hexact _ _).1
  · cases h; exact hXKK
  · cases h; exact hXKK
  · exact encode_of_decode8 hop h
  · cases h; exact absurd rfl (hexact _ _).2
  · cases h; exact hNNN
  · cases h; exact hNNN
  · cases h; exact hXKK
  · cases h; exact hXYN.symm
  · exact encode_of_decodeE hop h
  · exact encode_of_decodeF hop h

/-- Only families 0, 8, E and F hold words that are no instruction. -/
theorem family_of_decodeWord_error (h : decodeWord w = .error e) :
    (fieldOp w = 0x0 ∧ decode0 w = .error e) ∨ (fieldOp w = 0x8 ∧ decode8 w = .error e)
      ∨ (fieldOp w = 0xE ∧ decodeE w = .error e) ∨ (fieldOp w = 0xF ∧ decodeF w = .error e) := by
  rcases nibble_cases (fieldOp w) with hop | hop | hop | hop | hop | hop | hop | hop
    | hop | hop | hop | hop | hop | hop | hop | hop
  all_goals simp_all [decodeWord]

theorem decode0_eq_error (h : decode0 w = .error e) : w ≠ 0x00E0 ∧ w ≠ 0x00EE := by
  rw [decode0] at h
  split_ifs at h with hcls hret
  exact ⟨hcls, hret⟩

theorem nibble8_cases : ∀ n : BitVec 4, n.toNat ∉ illegalNibbles8 →
    n = 0x0 ∨ n = 0x1 ∨ n = 0x2 ∨ n = 0x3 ∨ n = 0x4 ∨ n = 0x5 ∨ n = 0x6 ∨ n = 0x7 ∨ n = 0xE := by
  decide

theorem decode8_eq_error (h : decode8 w = .error e) : (fieldN w).toNat ∈ illegalNibbles8 := by
  by_contra hn
  rcases nibble8_cases _ hn with hn | hn | hn | hn | hn | hn | hn | hn | hn <;> simp [decode8, hn] at h

theorem decodeE_eq_error (h : decodeE w = .error e) : (fieldKK w).toNat ∉ legalBytesE := by
  rw [decodeE] at h
  split_ifs at h
  simp_all [legalBytesE, ← BitVec.toNat_inj]

theorem decodeF_eq_error (h : decodeF w = .error e) : (fieldKK w).toNat ∉ legalBytesF := by
  simp only [decodeF] at h
  repeat' split at h
  all_goals cases h
  simp_all [legalBytesF, ← BitVec.toNat_inj]

theorem fieldOp_toNat (w : Word) : (fieldOp w).toNat = w.toNat / 0x1000 := by
  simp [fieldOp, Nat.shiftRight_eq_div_pow]
  omega

theorem fieldN_toNat (w : Word) : (fieldN w).toNat = w.toNat % 0x10 := by simp [fieldN]

theorem fieldKK_toNat (w : Word) : (fieldKK w).toNat = w.toNat % 0x100 := by simp [fieldKK]

/-- The table of 30_encoding.md R99 in terms of the fields that the decoder selects on. -/
theorem illegalWord_iff (w : Word) : illegalWord w = true ↔
    (fieldOp w = 0x0 ∧ w ≠ 0x00E0 ∧ w ≠ 0x00EE) ∨ (fieldOp w = 0x8 ∧ (fieldN w).toNat ∈ illegalNibbles8)
      ∨ (fieldOp w = 0xE ∧ (fieldKK w).toNat ∉ legalBytesE) ∨ (fieldOp w = 0xF ∧ (fieldKK w).toNat ∉ legalBytesF) := by
  simp [illegalWord, fieldN_toNat, fieldKK_toNat, fieldOp_toNat, ← BitVec.toNat_inj, or_assoc, and_assoc]

theorem illegalWord_of_decodeWord_error (h : decodeWord w = .error e) : illegalWord w = true := by
  rw [illegalWord_iff]
  exact (family_of_decodeWord_error h).imp (And.imp_right decode0_eq_error)
    (Or.imp (And.imp_right decode8_eq_error) (Or.imp (And.imp_right decodeE_eq_error) (And.imp_right decodeF_eq_error)))

end

end Sys2Proof

namespace Sys2Proof.Machine

/-! What a handler can do. -/

/-- The faults that an instruction raises, each under its condition (60_exceptions.md R254 to R257). -/
inductive Raises (s : State) : Instr → Fault → Prop
  | stackUnderflow (h : s.sp.val = 0) : Raises s .ret (.stackUnderflow s.thisPc (encode .ret))
  | stackOverflow (nnn : Addr) (h : s.sp.val = 16) :
    Raises s (.call nnn) (.stackOverflow s.thisPc (encode (.call nnn)))
  | memoryRange (i : Instr) (hlen : 1 ≤ accessLen i) (h : s.i.toNat + accessLen i - 1 > 0xFFF) :
    Raises s i (.memoryRange s.thisPc (encode i) s.i (accessLen i))
  | skpIndex (x : RegNum) (h : (s.reg x).toNat > 15) :
    Raises s (.skp x) (.keyIndex s.thisPc (encode (.skp x)) (s.reg x))
  | sknpIndex (x : RegNum) (h : (s.reg x).toNat > 15) :
    Raises s (.sknp x) (.keyIndex s.thisPc (encode (.sknp x)) (s.reg x))

/-- A piece of state is the very same in two states: `Same`, with registers and memory compared as they are stored. -/
def Unchanged (p : Part) (s t : State) : Prop :=
  match p with
  | .regs => t.v = s.v
  | .index => t.i = s.i
  | .pc => t.pc = s.pc
  | .sp => t.sp = s.sp
  | .stack => t.stack = s.stack
  | .delay => t.dt = s.dt
  | .sound => t.st = s.st
  | .mem => t.mem = s.mem
  | .fb => t.fb = s.fb
  | .key => t.key = s.key
  | .fault => t.fault = s.fault
  | .mode => t.mode = s.mode
  | .host => t.host = s.host

/-- From `s` to `t` only what `i` may write has changed (10_state.md R20, R22), and no fault was recorded. -/
structure Framed (i : Instr) (s t : State) : Prop where
  parts : ∀ p, p ∉ mayWrite i → Unchanged p s t
  regs : KeepsRegs (writtenRegs i) s t
  fault : t.fault = s.fault

/-- An answer of the handler of `i`: a next state in which a fault that `i` raises is recorded and nothing else has changed,
or one in which only what `i` may write has changed. -/
def Answers (i : Instr) (s : State) (r : Result) : Prop :=
  ∃ t, r = .next t ∧ ((∃ f, Raises s i f ∧ t = { s with fault := some f }) ∨ Framed i s t)

section
variable {i : Instr} {s t u : State} {p : Part}

theorem Unchanged.trans (hst : Unchanged p s t) (htu : Unchanged p t u) : Unchanged p s u := by
  cases p <;> exact Eq.trans htu hst

theorem Unchanged.same (h : Unchanged p s t) : Same p s t := by
  cases p
  case regs => exact fun r => State.reg_congr s r t h
  case mem => exact fun a => congrArg (Memory.read · a) h
  all_goals exact h

theorem Framed.trans (hst : Framed i s t) (htu : Framed i t u) : Framed i s u :=
  ⟨fun p hp => (hst.parts p hp).trans (htu.parts p hp), fun r hr => (htu.regs r hr).trans (hst.regs r hr),
    htu.fault.trans hst.fault⟩

theorem framed_refl : Framed i s s := ⟨fun p _ => by cases p <;> rfl, fun _ _ => rfl, rfl⟩

/-- Overwriting pieces of state that `i` may write, neither the registers nor the fault. -/
theorem framed_of_parts (hv : t.v = s.v := by rfl) (hf : t.fault = s.fault := by rfl)
    (h : ∀ p, p ∈ mayWrite i ∨ Unchanged p s t := by intro p; cases p <;> simp [mayWrite, Unchanged]) :
    Framed i s t where
  parts p hp := (h p).resolve_left hp
  regs r _ := State.reg_congr s r t hv
  fault := hf

theorem mode_mem_mayWrite (i : Instr) : Part.mode ∈ mayWrite i := by cases i <;> simp [mayWrite]

theorem framed_mode {m : Mode} : Framed i s { s with mode := m } :=
  framed_of_parts rfl rfl fun p => by cases p <;> simp [mode_mem_mayWrite, Unchanged]

theorem framed_skipIf {c : Bool} (hp : Part.pc ∈ mayWrite i := by simp [mayWrite]) : Framed i s (s.skipIf c) := by
  cases c
  · exact framed_refl
  · exact framed_of_parts rfl rfl fun p => by cases p <;> simp [hp, Unchanged]

theorem framed_setReg {x : RegNum} {b : Byte} (hp : Part.regs ∈ mayWrite i := by simp [mayWrite])
    (hx : x ∈ writtenRegs i := by simp [writtenRegs, flagReg]) : Framed i s (s.setReg x b) where
  parts p hp' := by
    cases p
    case regs => exact absurd hp hp'
    all_goals rfl
  regs r hr := State.reg_setReg_of_ne s x r b fun h => hr (h ▸ hx)
  fault := rfl

theorem framed_setRegFlag {x : RegNum} {b : Byte} {c : Bool} (hp : Part.regs ∈ mayWrite i := by simp [mayWrite])
    (hx : x ∈ writtenRegs i := by simp [writtenRegs])
    (hflag : flagReg ∈ writtenRegs i := by simp [writtenRegs, flagReg]) : Framed i s (s.setRegFlag x b c) :=
  (framed_setReg hp hx).trans (framed_setReg hp hflag)

theorem framed_setRegsFrom {k : Nat} {bs : List Byte} (hp : Part.regs ∈ mayWrite i)
    (hx : ∀ j, k ≤ j → j < k + bs.length → BitVec.ofNat 4 j ∈ writtenRegs i) : Framed i s (s.setRegsFrom k bs) := by
  induction bs generalizing s k with
  | nil => exact framed_refl
  | cons b bs ih =>
    rw [List.length_cons] at hx
    exact (framed_setReg hp (hx k le_rfl (by omega))).trans (ih fun j hj hj' => hx j (by omega) (by omega))

theorem answers_complete (h : Framed i s t) : Answers i s t.complete := ⟨_, rfl, .inr (h.trans framed_mode)⟩

theorem answers_raise {f : Fault} (h : Raises s i f) : Answers i s (s.raise f) := ⟨_, rfl, .inl ⟨f, h, rfl⟩⟩

theorem raises_of_outOfRange {n : Nat} (hn : accessLen i = n) (hpos : 1 ≤ n) (h : outOfRange s.i.toNat n = true) :
    Raises s i (.memoryRange s.thisPc (encode i) s.i n) := by
  subst hn
  exact .memoryRange i hpos ((outOfRange_eq_true_iff _ _).1 h)

/-- Every handler, held to its row of 10_state.md R20 and to its faults. -/
theorem exec_answers (i : Instr) (s : State) : Answers i s (exec i s) := by
  cases i
  case jp | jpV0 | cls | ldI | addI | ldF | ldDtVx | ldStVx => exact answers_complete framed_of_parts
  case seImm | sneImm | seReg | sneReg => exact answers_complete framed_skipIf
  case ldImm | addImm | ldReg | orReg | andReg | xorReg | rnd | ldVxDt => exact answers_complete framed_setReg
  case addReg | sub | shr | subn | shl => exact answers_complete framed_setRegFlag
  case ret =>
    simp only [exec, execRet]
    split
    · next h => exact answers_raise (.stackUnderflow h)
    · exact answers_complete framed_of_parts
  case call nnn =>
    simp only [exec, execCall]
    split
    · exact answers_complete framed_of_parts
    · next h => exact answers_raise (.stackOverflow nnn (by omega))
  case drw x y n =>
    simp only [exec, execDrw]
    split
    · next h =>
      rw [Bool.and_eq_true, decide_eq_true_eq] at h
      exact answers_raise (raises_of_outOfRange rfl h.1 h.2)
    · exact answers_complete (.trans framed_of_parts framed_setReg)
  case skp x =>
    simp only [exec, execSkp]
    split
    · exact answers_complete framed_skipIf
    · next h => exact answers_raise (.skpIndex x (by omega))
  case sknp x =>
    simp only [exec, execSknp]
    split
    · exact answers_complete framed_skipIf
    · next h => exact answers_raise (.sknpIndex x (by omega))
  case ldVxK x =>
    simp only [exec, execLdVxK]
    split
    · exact ⟨_, rfl, .inr framed_of_parts⟩
    · exact answers_complete framed_setReg
  case ldB x =>
    simp only [exec, execLdB]
    split
    · next h => exact answers_raise (raises_of_outOfRange rfl (by decide) h)
    · exact answers_complete framed_of_parts
  case storeRegs x =>
    simp only [exec, execStoreRegs]
    split
    · next h => exact answers_raise (raises_of_outOfRange rfl (Nat.succ_pos _) h)
    · exact answers_complete framed_of_parts
  case loadRegs x =>
    simp only [exec, execLoadRegs]
    split
    · next h => exact answers_raise (raises_of_outOfRange rfl (Nat.succ_pos _) h)
    · refine answers_complete (framed_setRegsFrom (by simp [mayWrite]) fun j _ hj => ?_)
      rw [Memory.readBytes_length] at hj
      exact List.mem_map.2 ⟨j, List.mem_range.2 (by simpa [regCount] using hj), rfl⟩

theorem exec_cases (h : exec i s = .next t) :
    (∃ f, Raises s i f ∧ t = { s with fault := some f }) ∨ Framed i s t := by
  obtain ⟨u, hu, hcases⟩ := exec_answers i s
  cases hu.symm.trans h
  exact hcases

theorem Raises.fault_mem_mayWrite {f : Fault} (h : Raises s i f) : Part.fault ∈ mayWrite i := by
  cases h
  case memoryRange hlen _ => cases i <;> simp_all [accessLen, mayWrite]
  all_goals simp [mayWrite]

theorem exec_unchanged (h : exec i s = .next t) (hp : p ∉ mayWrite i) : Unchanged p s t := by
  rcases exec_cases h with ⟨f, hraises, rfl⟩ | hframed
  · cases p
    case fault => exact absurd hraises.fault_mem_mayWrite hp
    all_goals rfl
  · exact hframed.parts p hp

end

/-- Settles O29: a fault changes nothing but the record, and `exec_answers` holds every completed handler to its frame. -/
theorem instructionFrames : Obligations.InstructionFrames := by
  intro i s t h
  refine ⟨fun p hp => (exec_unchanged h hp).same, ?_⟩
  rcases exec_cases h with ⟨f, -, rfl⟩ | hframed
  · exact fun _ _ => rfl
  · exact hframed.regs

/-! The event that a step performs, on the state it meets. -/

theorem eventStep_of_step {s t : State} (h : step s = .next t) :
    ∃ host : HostSide, host.bootOpen = s.host.bootOpen ∧ eventStep (nextEvent s) { s with host := host } = .next t :=
  ⟨(takeEvent s).2.host, takeEvent_bootOpen s, by rw [← takeEvent_state]; exact h⟩

/-! Memory stays inside the address space. -/

theorem runCycle_keeps_memoryInv {s t : State} (hs : MemoryInv s) (h : runCycle s = .next t) : MemoryInv t := by
  rcases runCycle_cases s t h with ⟨-, rfl⟩ | ⟨-, -, rfl⟩ | ⟨-, i, -, hexec⟩
  · exact hs
  · exact hs
  · rcases exec_mem i _ t hexec with hmem | ⟨a, bs, hlen, hmem⟩
    · rw [MemoryInv, hmem]; exact hs
    · rw [MemoryInv, hmem]; exact Memory.writeBytes_wf _ a bs hs hlen

theorem eventStep_keeps_memoryInv {e : HostEvent} {s t : State} (hs : MemoryInv s) (h : eventStep e s = .next t) :
    MemoryInv t := by
  rcases eventStep_cases e s t h with ⟨-, rfl⟩ | ⟨_, -, -, -, rfl⟩ | ⟨bytes, -, -, hlen, rfl⟩ | ⟨_, _, -, rfl⟩
    | ⟨-, -, rfl⟩ | ⟨-, -, rfl⟩ | ⟨b, -, -, hrun⟩
  case inl => exact reset_memory_wf
  case inr.inr.inl => exact Memory.writeBytes_wf _ _ _ hs (by omega)
  case inr.inr.inr.inr.inr.inr => exact runCycle_keeps_memoryInv (s := (s.latchRnd b).closeBoot) hs hrun
  all_goals exact hs

/-- Settles O24: memory is written by a handler inside the address space, by `load_rom` from `0x200` at most 3584 bytes, and
by nothing else. -/
theorem stepKeepsMemoryForm : Obligations.StepKeepsMemoryForm := by
  intro s t hs h
  obtain ⟨host, -, hevent⟩ := eventStep_of_step h
  exact eventStep_keeps_memoryInv (s := { s with host := host }) hs hevent

/-! The bound of `pc`. -/

theorem preAdvance_pc_toNat {s : State} (h : s.pc.toNat ≤ 0xFFE) : s.preAdvance.pc.toNat = s.pc.toNat + 2 := by
  rw [State.preAdvance_pc]
  bv_omega

theorem skipIf_pc_cases (s : State) (c : Bool) : (s.skipIf c).pc = s.pc ∨ (s.skipIf c).pc = s.pc + 2 := by
  cases c
  · exact .inl rfl
  · exact .inr rfl

/-- Every place that `pc` can have after a handler: where the fetch advanced it to or past a skipped instruction, back on a
waiting `Fx0A`, on the target of a jump or a call, on a return address. -/
theorem exec_pc_cases {i : Instr} {s t : State} (h : exec i s = .next t) :
    (t.pc = s.pc ∨ t.pc = s.pc + 2) ∨ t.pc = s.pc - 2 ∨ t.pc.toNat ≤ 0x10FE
      ∨ ∃ k, ∃ hk : k < 16, t.pc = s.stack[k] := by
  cases i
  case ret =>
    simp only [exec, execRet] at h
    split at h
    · cases h; exact .inl (.inl rfl)
    · cases h; exact .inr (.inr (.inr ⟨s.sp.val - 1, by omega, rfl⟩))
  case jp nnn =>
    cases h
    exact .inr (.inr (.inl (by rw [addrWord_toNat]; omega)))
  case jpV0 nnn =>
    cases h
    exact .inr (.inr (.inl (by rw [offsetTarget_toNat]; omega)))
  case call nnn =>
    simp only [exec, execCall] at h
    split at h
    · cases h; exact .inr (.inr (.inl (by rw [addrWord_toNat]; omega)))
    · cases h; exact .inl (.inl rfl)
  case seImm | sneImm | seReg | sneReg => cases h; exact .inl (skipIf_pc_cases s _)
  case skp x =>
    simp only [exec, execSkp] at h
    split at h
    · cases h; exact .inl (skipIf_pc_cases s _)
    · cases h; exact .inl (.inl rfl)
  case sknp x =>
    simp only [exec, execSknp] at h
    split at h
    · cases h; exact .inl (skipIf_pc_cases s _)
    · cases h; exact .inl (.inl rfl)
  case ldVxK x =>
    simp only [exec, execLdVxK] at h
    split at h
    · cases h; exact .inr (.inl rfl)
    · cases h; exact .inl (.inl rfl)
  all_goals exact .inl (.inl (exec_unchanged (p := .pc) h (by simp [mayWrite])))

/-- A handler pushes the advanced `pc` or leaves the stack as it is. -/
theorem exec_stack_cases {i : Instr} {s t : State} (h : exec i s = .next t) :
    t.stack = s.stack ∨ ∃ k, ∃ hk : k < 16, t.stack = s.stack.set k s.pc := by
  cases i
  case call nnn =>
    simp only [exec, execCall] at h
    split at h
    · next hroom => cases h; exact .inr ⟨s.sp.val, hroom, rfl⟩
    · cases h; exact .inl rfl
  all_goals exact .inl (exec_unchanged (p := .stack) h (by simp [mayWrite]))

theorem exec_keeps_pcInv {i : Instr} {s t : State} (hs : PcInv s) (hlow : 2 ≤ s.pc.toNat) (hhigh : s.pc.toNat ≤ 0x1000)
    (h : exec i s = .next t) : PcInv t := by
  obtain ⟨-, hstack⟩ := hs
  constructor
  · rcases exec_pc_cases h with (hpc | hpc) | hpc | hpc | ⟨k, hk, hpc⟩
    · rw [hpc]; omega
    · rw [hpc]; bv_omega
    · rw [hpc]; bv_omega
    · exact hpc
    · have := hstack k hk
      rw [hpc]; omega
  · intro k hk
    rcases exec_stack_cases h with hpush | ⟨j, hj, hpush⟩
    · simpa only [hpush] using hstack k hk
    · simp only [hpush, Vector.getElem_set]
      split
      · exact hhigh
      · exact hstack k hk

theorem runCycle_keeps_pcInv {s t : State} (hs : PcInv s) (h : runCycle s = .next t) : PcInv t := by
  rcases runCycle_cases s t h with ⟨-, rfl⟩ | ⟨hpc, -, rfl⟩ | ⟨hpc, i, -, hexec⟩
  · exact hs
  all_goals
    have hadvanced := preAdvance_pc_toNat hpc
    have hs' : PcInv s.preAdvance := ⟨by omega, hs.2⟩
  · exact hs'
  · exact exec_keeps_pcInv hs' (by omega) (by omega) hexec

theorem reset_pcInv : PcInv State.reset := ⟨by decide, by decide⟩

theorem eventStep_keeps_pcInv {e : HostEvent} {s t : State} (hs : PcInv s) (h : eventStep e s = .next t) :
    PcInv t := by
  rcases eventStep_cases e s t h with ⟨-, rfl⟩ | ⟨_, -, -, -, rfl⟩ | ⟨_, -, -, -, rfl⟩ | ⟨_, _, -, rfl⟩
    | ⟨-, -, rfl⟩ | ⟨-, -, rfl⟩ | ⟨b, -, -, hrun⟩
  case inl => exact reset_pcInv
  case inr.inr.inr.inr.inr.inr => exact runCycle_keeps_pcInv (s := (s.latchRnd b).closeBoot) hs hrun
  all_goals exact hs

/-- Settles O25: a handler runs with `pc` between 2 and `0x1000`, and none of the places it can put it is above `0x10FE`. -/
theorem stepKeepsPcBound : Obligations.StepKeepsPcBound := by
  intro s t hs h
  obtain ⟨host, -, hevent⟩ := eventStep_of_step h
  exact eventStep_keeps_pcInv (s := { s with host := host }) hs hevent

/-! The fault record. -/

section
variable {i : Instr} {s t : State} {f : Fault}

theorem Raises.pc_eq (h : Raises s i f) : f.pc = s.thisPc := by cases h <;> rfl

theorem Raises.opcode_eq (h : Raises s i f) : f.opcode = some (encode i) := by cases h <;> rfl

/-- The two instructions whose word is not their encoding raise no fault. -/
theorem Raises.ne_regSkip (h : Raises s i f) (x y : RegNum) : i ≠ .seReg x y ∧ i ≠ .sneReg x y := by
  have hfault := h.fault_mem_mayWrite
  constructor <;> rintro rfl <;> simp [mayWrite] at hfault

@[simp] theorem preAdvance_thisPc (s : State) : s.preAdvance.thisPc = s.pc := BitVec.add_sub_cancel s.pc 2

/-- The three ways in which a cycle records a fault (60_exceptions.md R261). -/
theorem runCycle_newFault (h : runCycle s = .next t) (hs : s.fault = none) (hf : t.fault = some f) :
    (s.pc.toNat > 0xFFE ∧ f = .fetchRange s.pc ∧ t = { s with fault := some f })
    ∨ (s.pc.toNat ≤ 0xFFE ∧ t = { s.preAdvance with fault := some f }
      ∧ ((illegalWord s.fetchWord = true ∧ f = .decode s.pc s.fetchWord)
        ∨ ∃ i, encode i = s.fetchWord ∧ Raises s.preAdvance i f)) := by
  rcases runCycle_cases s t h with ⟨hpc, rfl⟩ | ⟨hpc, ⟨e, he⟩, rfl⟩ | ⟨hpc, i, hi, hexec⟩
  · cases hf
    exact .inl ⟨hpc, rfl, rfl⟩
  · cases hf
    exact .inr ⟨hpc, rfl, .inl ⟨illegalWord_of_decodeWord_error he, rfl⟩⟩
  · rcases exec_cases hexec with ⟨g, hraises, rfl⟩ | hframed
    · cases hf
      exact .inr ⟨hpc, rfl, .inr ⟨i, encode_of_decodeWord hi hraises.ne_regSkip, hraises⟩⟩
    · cases (hframed.fault.trans hs).symm.trans hf

/-- No event but a cycle records a fault. -/
theorem eventStep_newFault {e : HostEvent} (h : eventStep e s = .next t) (hs : s.fault = none) (hf : t.fault = some f) :
    ∃ b, runCycle (s.latchRnd b).closeBoot = .next t := by
  rcases eventStep_cases e s t h with ⟨-, rfl⟩ | ⟨_, -, -, -, rfl⟩ | ⟨_, -, -, -, rfl⟩ | ⟨_, _, -, rfl⟩
    | ⟨-, -, rfl⟩ | ⟨-, -, rfl⟩ | ⟨b, -, -, hrun⟩
  case inl => cases hf
  case inr.inr.inr.inr.inr.inr => exact ⟨b, hrun⟩
  all_goals cases hs.symm.trans hf

theorem faultFits_of_raises (hraises : Raises s i f) (hfetched : FetchedFrom s s.thisPc (encode i)) : FaultFits s f := by
  cases hraises
  case stackUnderflow h => exact ⟨hfetched, rfl, h⟩
  case stackOverflow nnn h => exact ⟨hfetched, ⟨nnn, rfl⟩, h⟩
  case memoryRange hlen h => exact ⟨hfetched, ⟨i, rfl, rfl⟩, hlen, rfl, h⟩
  case skpIndex x h => exact ⟨hfetched, ⟨x, .inl rfl, rfl⟩, h⟩
  case sknpIndex x h => exact ⟨hfetched, ⟨x, .inr rfl, rfl⟩, h⟩

/-- Whether a fault fits depends on the registers, `I`, `pc`, `sp` and memory alone. -/
theorem FaultFits.congr (hfits : FaultFits s f) (hv : t.v = s.v := by rfl) (hi : t.i = s.i := by rfl)
    (hpc : t.pc = s.pc := by rfl) (hsp : t.sp = s.sp := by rfl) (hmem : t.mem = s.mem := by rfl) : FaultFits t f := by
  cases f <;> simpa only [FaultFits, FetchedFrom, hi, hpc, hsp, hmem, State.reg_congr s _ t hv] using hfits

theorem runCycle_faultFits (h : runCycle s = .next t) (hs : s.fault = none) (hf : t.fault = some f) : FaultFits t f := by
  rcases runCycle_newFault h hs hf with ⟨hpc, rfl, rfl⟩ | ⟨hpc, rfl, hcause⟩
  · exact ⟨hpc, rfl⟩
  · have hfetched : FetchedFrom s.preAdvance s.pc s.fetchWord := ⟨hpc, rfl, rfl⟩
    suffices FaultFits s.preAdvance f from this.congr
    rcases hcause with ⟨hillegal, rfl⟩ | ⟨i, hi, hraises⟩
    · exact ⟨hfetched, hillegal⟩
    · exact faultFits_of_raises hraises (by rwa [preAdvance_thisPc, hi])

theorem eventStep_keeps_faultInv {e : HostEvent} (hs : FaultInv s) (h : eventStep e s = .next t) : FaultInv t := by
  intro f hf
  by_cases hnone : s.fault = none
  · obtain ⟨b, hrun⟩ := eventStep_newFault h hnone hf
    exact ⟨runCycle_faultFits hrun hnone hf, by rw [runCycle_host _ t hrun]; rfl⟩
  · rcases eventStep_cases e s t h with ⟨-, rfl⟩ | ⟨_, -, -, -, rfl⟩ | ⟨_, -, hopen, -, rfl⟩ | ⟨k, b, -, rfl⟩
      | ⟨-, -, rfl⟩ | ⟨-, hnone', -⟩ | ⟨b, -, hnone', -⟩
    · cases hf
    · exact hs f hf
    · cases hopen.symm.trans (hs f hf).2
    · exact ⟨(hs f hf).1.congr, (hs f hf).2⟩
    · exact hs f hf
    · exact absurd hnone' hnone
    · exact absurd hnone' hnone

end

/-- Settles O27: a new fault comes from a cycle, which has closed the launch window and leaves everything the fault names; an
old one meets no event that touches what it names, but a reset, which clears it. -/
theorem stepKeepsFaultRecord : Obligations.StepKeepsFaultRecord := by
  intro s t hs h
  obtain ⟨host, hboot, hevent⟩ := eventStep_of_step h
  exact eventStep_keeps_faultInv (s := { s with host := host })
    (fun f hf => ⟨(hs f hf).1.congr, hboot.trans (hs f hf).2⟩) hevent

/-- Settles O31, by the three ways in which a cycle records a fault. -/
theorem faultRecordsInstruction : Obligations.FaultRecordsInstruction := by
  intro s t f hs h hf
  obtain ⟨host, -, hevent⟩ := eventStep_of_step h
  obtain ⟨b, hrun⟩ := eventStep_newFault (s := { s with host := host }) hevent hs hf
  rcases runCycle_newFault hrun hs hf with ⟨hpc, rfl, -⟩ | ⟨hpc, rfl, hcause⟩
  · exact ⟨rfl, ⟨fun _ => hpc, fun _ => rfl⟩, by rintro w ⟨⟩⟩
  · obtain ⟨hfpc, hop⟩ : f.pc = s.pc ∧ f.opcode = some s.fetchWord := by
      rcases hcause with ⟨-, rfl⟩ | ⟨i, hi, hraises⟩
      · exact ⟨rfl, rfl⟩
      · exact ⟨hraises.pc_eq.trans (preAdvance_thisPc _), hraises.opcode_eq.trans (congrArg some hi)⟩
    rw [hop]
    refine ⟨hfpc, ⟨fun hnone => (by cases hnone), fun hgt => absurd hgt (not_lt.2 hpc)⟩, ?_⟩
    rintro w ⟨⟩
    exact ⟨rfl, rfl⟩

/-- Settles O28. -/
theorem invariantsAtReset : Obligations.InvariantsAtReset :=
  ⟨reset_memory_wf, reset_pcInv, by rintro _ ⟨⟩, by rintro _ ⟨⟩⟩

/-! The keypad and the timers. -/

theorem key_notMem_mayWrite (i : Instr) : Part.key ∉ mayWrite i := by cases i <;> simp [mayWrite]

theorem ldDtVx_of_delay_mem {i : Instr} (h : Part.delay ∈ mayWrite i) : ∃ x, i = .ldDtVx x := by
  cases i
  case ldDtVx x => exact ⟨x, rfl⟩
  all_goals simp [mayWrite] at h

theorem ldStVx_of_sound_mem {i : Instr} (h : Part.sound ∈ mayWrite i) : ∃ x, i = .ldStVx x := by
  cases i
  case ldStVx x => exact ⟨x, rfl⟩
  all_goals simp [mayWrite] at h

theorem runCycle_unchanged {s t : State} {p : Part} (h : runCycle s = .next t) (hpc : p ≠ .pc) (hfault : p ≠ .fault)
    (hi : ∀ i, decodeWord s.fetchWord = .ok i → p ∉ mayWrite i) : Unchanged p s t := by
  rcases runCycle_cases s t h with ⟨-, rfl⟩ | ⟨-, -, rfl⟩ | ⟨-, i, hdecode, hexec⟩
  · cases p <;> trivial
  · cases p <;> trivial
  · have hadvance : Unchanged p s s.preAdvance := by cases p <;> trivial
    exact hadvance.trans (exec_unchanged hexec (hi i hdecode))

/-- An event leaves the keypad or a timer as it is, unless it is a reset, the event that writes it, or a cycle whose
instruction may write it. -/
theorem eventStep_unchanged {e : HostEvent} {s t : State} {p : Part} (h : eventStep e s = .next t)
    (hp : p = .key ∨ p = .delay ∨ p = .sound) (hreset : e ≠ .reset) (hkey : p = .key → ∀ k b, e ≠ .setKey k b)
    (htick : p ≠ .key → e ≠ .tick) (hi : ∀ i, decodeWord s.fetchWord = .ok i → p ∉ mayWrite i) : Unchanged p s t := by
  rcases eventStep_cases e s t h with ⟨rfl, -⟩ | ⟨_, -, -, -, rfl⟩ | ⟨_, -, -, -, rfl⟩ | ⟨k, b, rfl, rfl⟩
    | ⟨-, -, rfl⟩ | ⟨rfl, -, rfl⟩ | ⟨b, -, -, hrun⟩
  · exact absurd rfl hreset
  · cases p <;> rfl
  · rcases hp with rfl | rfl | rfl <;> rfl
  · rcases hp with rfl | rfl | rfl
    · exact absurd rfl (hkey rfl k b)
    · rfl
    · rfl
  · cases p <;> rfl
  · rcases hp with rfl | rfl | rfl
    · rfl
    · exact absurd rfl (htick (by decide))
    · exact absurd rfl (htick (by decide))
  · have hcycle : Unchanged p (s.latchRnd b).closeBoot t :=
      runCycle_unchanged hrun (by rintro rfl; simp at hp) (by rintro rfl; simp at hp) hi
    rcases hp with rfl | rfl | rfl <;> exact hcycle

/-- Settles O35. -/
theorem keysAndTimersChange : Obligations.KeysAndTimersChange := by
  intro s t h hreset
  obtain ⟨host, -, hevent⟩ := eventStep_of_step h
  have hunchanged {p : Part} := eventStep_unchanged (s := { s with host := host }) (p := p) hevent
  refine ⟨fun hkey => ?_, fun htick hdt => ?_, fun htick hst => ?_⟩
  · exact hunchanged (p := .key) (by decide) hreset (fun _ => hkey) (absurd rfl) fun i _ => key_notMem_mayWrite i
  · refine hunchanged (p := .delay) (by decide) hreset (fun h => by cases h) (fun _ => htick) fun i hi hmem => ?_
    obtain ⟨x, rfl⟩ := ldDtVx_of_delay_mem hmem
    exact hdt x hi
  · refine hunchanged (p := .sound) (by decide) hreset (fun h => by cases h) (fun _ => htick) fun i hi hmem => ?_
    obtain ⟨x, rfl⟩ := ldStVx_of_sound_mem hmem
    exact hst x hi

/-- Settles O12. -/
theorem setKeyWritesOneFlag : Obligations.SetKeyWritesOneFlag := by
  intro s k b
  refine ⟨_, rfl, Vector.getElem_set_self _, fun j hj => ?_, fun p hp => ?_⟩
  · exact Vector.getElem_set_ne k.isLt j.isLt fun h => hj (Fin.ext h.symm)
  · cases p
    case key => simp at hp
    case regs | mem => exact fun _ => rfl
    all_goals rfl

/-! `mode` is never read. -/

/-- The second answer is the first one, but for the `mode` of its state. -/
inductive SameButMode : Result → Result → Prop
  | next (t : State) (m : Mode) : SameButMode (.next t) (.next { t with mode := m })
  | refused (r : Refusal) : SameButMode (.refused r) (.refused r)

section
variable (s : State) (m : Mode)

theorem skipIf_withMode (c : Bool) : State.skipIf { s with mode := m } c = { s.skipIf c with mode := m } := by
  cases c <;> rfl

theorem setRegsFrom_withMode (k : Nat) (bs : List Byte) :
    State.setRegsFrom { s with mode := m } k bs = { s.setRegsFrom k bs with mode := m } := by
  induction bs generalizing s k with
  | nil => rfl
  | cons b bs ih => exact ih (s.setReg (BitVec.ofNat 4 k) b) (k + 1)

theorem regsFrom_withMode (k len : Nat) : State.regsFrom { s with mode := m } k len = s.regsFrom k len := by
  induction len generalizing k with
  | zero => rfl
  | succ n ih => exact congrArg _ (ih _)

theorem takeEvent_withMode :
    takeEvent { s with mode := m } = ((takeEvent s).1, { (takeEvent s).2 with mode := m }) := by
  cases h : s.host.inputs with
  | nil => rw [takeEvent_of_inputs_nil (s := { s with mode := m }) h, takeEvent_of_inputs_nil h]
  | cons e es => rw [takeEvent_of_inputs_cons (s := { s with mode := m }) h, takeEvent_of_inputs_cons h]

theorem complete_sameButMode {s t : State} (h : t = { s with mode := m }) : SameButMode s.complete t.complete := by
  subst h
  exact .next _ .running

theorem raise_sameButMode (f : Fault) : SameButMode (s.raise f) (State.raise { s with mode := m } f) := .next _ m

theorem sameButMode_ite {p : Prop} [Decidable p] {r r' u u' : Result} (hr : SameButMode r r') (hu : SameButMode u u') :
    SameButMode (if p then r else u) (if p then r' else u') := by
  split
  · exact hr
  · exact hu

theorem sameButMode_dite {p : Prop} [Decidable p] {r r' : p → Result} {u u' : ¬p → Result}
    (hr : ∀ h, SameButMode (r h) (r' h)) (hu : ∀ h, SameButMode (u h) (u' h)) :
    SameButMode (if h : p then r h else u h) (if h : p then r' h else u' h) := by
  split
  · exact hr _
  · exact hu _

theorem exec_sameButMode (i : Instr) : SameButMode (exec i s) (exec i { s with mode := m }) := by
  have hskip (c : Bool) : SameButMode (s.skipIf c).complete (State.skipIf { s with mode := m } c).complete :=
    complete_sameButMode m (skipIf_withMode s m c)
  cases i
  case seImm | sneImm | seReg | sneReg => exact hskip _
  case skp | sknp => exact sameButMode_dite (fun _ => hskip _) fun _ => raise_sameButMode s m _
  case call => exact sameButMode_dite (fun _ => complete_sameButMode m rfl) fun _ => raise_sameButMode s m _
  case ret | drw | ldB => exact sameButMode_ite (raise_sameButMode s m _) (complete_sameButMode m rfl)
  case storeRegs =>
    exact sameButMode_ite (raise_sameButMode s m _) (complete_sameButMode m (by rw [regsFrom_withMode s m]))
  case loadRegs =>
    exact sameButMode_ite (raise_sameButMode s m _) (complete_sameButMode m (setRegsFrom_withMode s m _ _))
  case ldVxK x =>
    simp only [exec, execLdVxK]
    split
    · exact .next _ (.awaitingKey x)
    · exact complete_sameButMode m rfl
  all_goals exact complete_sameButMode m rfl

theorem runCycle_sameButMode : SameButMode (runCycle s) (runCycle { s with mode := m }) := by
  by_cases hpc : s.pc.toNat ≤ 0xFFE
  · cases hdecode : decodeWord s.fetchWord with
    | ok i =>
      rw [runCycle_of_ok s i hpc hdecode, runCycle_of_ok { s with mode := m } i hpc hdecode]
      exact exec_sameButMode s.preAdvance m i
    | error e =>
      rw [runCycle_of_error s e hpc hdecode, runCycle_of_error { s with mode := m } e hpc hdecode]
      exact .next _ m
  · rw [runCycle_of_gt s (not_le.1 hpc), runCycle_of_gt { s with mode := m } (not_le.1 hpc)]
    exact .next _ m

theorem eventStep_sameButMode (e : HostEvent) : SameButMode (eventStep e s) (eventStep e { s with mode := m }) := by
  cases e with
  | reset => exact .next _ .running
  | loadRom bytes =>
    refine sameButMode_ite ?_ (.refused _)
    by_cases hlen : bytes.length > 3584
    · rw [loadRom_of_gt _ _ hlen, loadRom_of_gt _ _ hlen]
      exact .next s m
    · rw [loadRom_of_le _ _ (by omega), loadRom_of_le _ _ (by omega)]
      exact .next _ m
  | setKey k b => exact .next _ m
  | cycle b => exact sameButMode_ite (.next s m) (runCycle_sameButMode _ m)
  | tick => exact sameButMode_ite (.next s m) (.next _ m)

theorem step_sameButMode : SameButMode (step s) (step { s with mode := m }) := by
  rw [step_eq, step_eq, takeEvent_withMode s m]
  exact eventStep_sameButMode _ m _

end

/-- Settles O33: the two clauses are the two cases of `SameButMode`. -/
theorem modeNeverRead : Obligations.ModeNeverRead := by
  intro s m
  have hsame := step_sameButMode s m
  generalize step { s with mode := m } = r' at hsame
  constructor
  · intro t ht
    rw [ht] at hsame
    cases hsame with
    | next _ m' => exact ⟨m', rfl⟩
  · intro r hr
    rw [hr] at hsame
    cases hsame with
    | refused _ => rfl

/-! A call and a return. -/

theorem exec_call_of_room {nnn : Addr} {s : State} (h : s.sp.val < 16) :
    exec (.call nnn) s = .next { s with
      stack := s.stack.set s.sp.val s.pc
      sp := ⟨s.sp.val + 1, by omega⟩
      pc := addrWord nnn
      mode := .running } := dif_pos h

theorem exec_ret_of_frame {s : State} {k : Nat} (hk : k < 16) (h : s.sp.val = k + 1) :
    exec .ret s = .next { s with sp := ⟨k, by omega⟩, pc := s.stack[k], mode := .running } := by
  simp [exec, execRet, h, State.complete_eq]

/-- Settles O55: the return pops the entry that the call has pushed. -/
theorem callThenReturn : Obligations.CallThenReturn := by
  intro nnn s t pc hroom hcall
  rw [exec_call_of_room hroom] at hcall
  cases hcall
  exact ⟨_, exec_ret_of_frame hroom rfl, Vector.getElem_set_self _, rfl⟩

/-- Settles O1: memory lists no cell, so each byte reads as `glyphTable` has it, 0 past its 80 bytes; the rest are constant
vectors and literals. -/
theorem resetState : Obligations.ResetState := by
  refine ⟨fun r => ?_, rfl, rfl, rfl, fun k hk => ?_, rfl, rfl, fun a _ => rfl, fun a ha => ?_, fun r c => ?_,
    fun k hk => ?_, rfl, rfl⟩
  · simp [State.reg, State.reset]
  · simp [State.reset]
  · exact List.getD_eq_default _ _ ha
  · simp [State.pixel, Framebuffer.pixel, State.reset]
  · simp [State.reset]

end Sys2Proof.Machine
end

section
/-! The statement of 20_memory.md: a fetch sees what was stored. -/

namespace Sys2Proof.Machine

/-! Stored registers. -/

/-- `Fx55` inside the address space: the registers are written from `I` up (43_index_memory.md R194). -/
theorem exec_storeRegs_of_le {x : RegNum} {s : State} (h : s.i.toNat + x.toNat ≤ 0xFFF) :
    exec (.storeRegs x) s = .next { s with
      mem := Memory.writeBytes s.mem s.i.toNat (s.regsFrom 0 (regCount x))
      mode := .running } :=
  if_neg (by rw [Bool.not_eq_true, outOfRange_eq_false_iff]; exact h)

/-- Where `Fx55` has stored `V0..Vx`, the byte at `I + k` reads as `Vk`. -/
theorem read_storedRegs {x : RegNum} {s : State} {k : Nat} (hwf : Memory.wf s.mem)
    (h : s.i.toNat + x.toNat ≤ 0xFFF) (hk : k ≤ x.toNat) :
    Memory.read (Memory.writeBytes s.mem s.i.toNat (s.regsFrom 0 (regCount x))) (s.i.toNat + k)
      = s.reg (BitVec.ofNat 4 k) := by
  have hlen : (s.regsFrom 0 (regCount x)).length = x.toNat + 1 := State.regsFrom_length s 0 _
  rw [Memory.read_writeBytes _ _ _ k hwf (by omega) (by omega),
    State.regsFrom_getD s 0 (regCount x) k (Nat.lt_succ_of_le hk), Nat.zero_add]

/-- Settles O18: the fetch at `pc = I` reads the first two stored bytes. -/
theorem fetchSeesStores : Obligations.FetchSeesStores := by
  intro x s hwf hi hx hrange
  rw [← hi] at hrange
  refine ⟨_, exec_storeRegs_of_le hrange, ?_⟩
  have hhigh := read_storedRegs hwf hrange (Nat.zero_le _)
  have hlow := read_storedRegs hwf hrange hx
  rw [State.fetchWord, ← hi]
  exact congrArg₂ wordOfBytes hhigh hlow

end Sys2Proof.Machine
end

section
/-! PROOFS of the family 30_encoding.md: decoding and encoding are inverse, each word selects one row, and the table of R99
lists the words that are no instruction. -/

namespace Sys2Proof

open Laws Machine

section
variable {v w : Word} {i : Instr}

/-! The primary selection (40_dispatch.md R123) for the families that the proofs below single out. -/

theorem decodeWord_of_family0 (hop : fieldOp w = 0x0) : decodeWord w = decode0 w := by simp [decodeWord, hop]

theorem decodeWord_of_family5 (hop : fieldOp w = 0x5) : decodeWord w = .ok (.seReg (fieldX w) (fieldY w)) := by
  simp [decodeWord, hop]

theorem decodeWord_of_family8 (hop : fieldOp w = 0x8) : decodeWord w = decode8 w := by simp [decodeWord, hop]

theorem decodeWord_of_family9 (hop : fieldOp w = 0x9) : decodeWord w = .ok (.sneReg (fieldX w) (fieldY w)) := by
  simp [decodeWord, hop]

theorem decodeWord_of_familyE (hop : fieldOp w = 0xE) : decodeWord w = decodeE w := by simp [decodeWord, hop]

theorem decodeWord_of_familyF (hop : fieldOp w = 0xF) : decodeWord w = decodeF w := by simp [decodeWord, hop]

/-! Decoding an encoded instruction. -/

/-- Each family on its own: the top nibble selects the family, and the nibble or byte that its secondary selection reads is the
row's. -/
theorem decodeWord_encode (i : Instr) : decodeWord (encode i) = .ok i := by
  cases i
  case cls | ret => rfl
  case ldReg | orReg | andReg | xorReg | addReg | sub | shr | subn | shl =>
    rw [encode, decodeWord_of_family8 (fieldOp_formXYN ..)]
    simp [decode8]
  case skp | sknp =>
    rw [encode, decodeWord_of_familyE (fieldOp_formXKK ..)]
    simp [decodeE]
  case ldVxDt | ldVxK | ldDtVx | ldStVx | addI | ldF | ldB | storeRegs | loadRegs =>
    rw [encode, decodeWord_of_familyF (fieldOp_formXKK ..)]
    simp [decodeF]
  all_goals simp [encode, decodeWord]

/-- Bytes are decoded as the word they make up; the bytes after the first two are returned. -/
theorem decodeBytes_of_decodeWord (h : decodeWord w = .ok i) (rest : List Byte) :
    decodeBytes (bytesOfWord w ++ rest) = .ok (i, rest) := by
  simp [bytesOfWord, decodeBytes, wordOfBytes_bytes, h]

/-! Encoding a decoded instruction. -/

/-- A word and the encoding of the instruction it decodes to are of one family. -/
theorem fieldOp_encode_of_decodeWord (h : decodeWord w = .ok i) : fieldOp (encode i) = fieldOp w := by
  rcases nibble_cases (fieldOp w) with hop | hop | hop | hop | hop | hop | hop | hop
    | hop | hop | hop | hop | hop | hop | hop | hop
  all_goals simp only [decodeWord, hop, BitVec.reduceEq, ↓reduceIte] at h
  -- The four families with a secondary selection, the last one first.
  on_goal 16 => rw [encode_of_decodeF hop h, hop]
  on_goal 15 => rw [encode_of_decodeE hop h, hop]
  on_goal 9 => rw [encode_of_decode8 hop h, hop]
  on_goal 1 => rw [encode_of_decode0 h, hop]
  all_goals
    cases h
    simp [encode, hop]

/-- The bits that mask `FFF0` keeps. -/
theorem and_FFF0 (op x y n : BitVec 4) : formXYN op x y n &&& 0xFFF0 = formXYN op x y 0 := by
  rw [show (0xFFF0 : Word) = formXYN 0xF 0xF 0xF 0 from rfl, formXYN, formXYN, BitVec.and_append, BitVec.and_append,
    BitVec.and_append, nibble_and, nibble_and, nibble_and]
  simp [formXYN]

/-- In families 5 and 9 the canonical spelling has the low nibble 0 (30_encoding.md R97). -/
theorem canonicalWord_of_family (hop : fieldOp w = 0x5 ∨ fieldOp w = 0x9) :
    canonicalWord w = formXYN (fieldOp w) (fieldX w) (fieldY w) 0 := by
  rw [canonicalWord, if_pos hop, ← and_FFF0 _ _ _ (fieldN w), ← word_eq_nibbles]

/-- In families 5 and 9 the encoding is the canonical spelling; in the others the instruction carries every bit of the word. -/
theorem encode_eq_canonicalWord (h : decodeWord w = .ok i) : encode i = canonicalWord w := by
  by_cases hop : fieldOp w = 0x5 ∨ fieldOp w = 0x9
  · rw [canonicalWord_of_family hop]
    rcases hop with hop | hop
    · cases (decodeWord_of_family5 hop).symm.trans h
      rw [hop, encode]
    · cases (decodeWord_of_family9 hop).symm.trans h
      rw [hop, encode]
  · rw [canonicalWord, if_neg hop]
    refine encode_of_decodeWord h fun x y => ⟨?_, ?_⟩
    · rintro rfl
      exact hop (.inl ((fieldOp_encode_of_decodeWord h).symm.trans (fieldOp_formXYN ..)))
    · rintro rfl
      exact hop (.inr ((fieldOp_encode_of_decodeWord h).symm.trans (fieldOp_formXYN ..)))

/-! Rows. -/

/-- The row of an instruction fits the instruction's own word (30_encoding.md R95). -/
theorem encode_and_mask (i : Instr) : encode i &&& i.mask = i.pattern := by
  cases i
  case cls | ret => rfl
  case ldReg | orReg | andReg | xorReg | addReg | sub | shr | subn | shl => exact and_F00F ..
  case skp | sknp | ldVxDt | ldVxK | ldDtVx | ldStVx | addI | ldF | ldB | storeRegs | loadRegs => exact and_F0FF ..
  all_goals exact and_F000 ..

/-- No row that a word of families 5 and 9 selects examines the low nibble. -/
theorem canonicalWord_and_mask (h : decodeWord w = .ok i) : canonicalWord w &&& i.mask = w &&& i.mask := by
  by_cases hop : fieldOp w = 0x5 ∨ fieldOp w = 0x9
  · have hmask : i.mask = 0xF000 := by
      rcases hop with hop | hop
      · cases (decodeWord_of_family5 hop).symm.trans h
        rfl
      · cases (decodeWord_of_family9 hop).symm.trans h
        rfl
    rw [canonicalWord, if_pos hop, hmask, BitVec.and_assoc]
    rfl
  · rw [canonicalWord, if_neg hop]

theorem and_mask_of_decodeWord (h : decodeWord w = .ok i) : w &&& i.mask = i.pattern := by
  rw [← canonicalWord_and_mask h, ← encode_eq_canonicalWord h, encode_and_mask]

/-! What a match of mask and pattern says about the fields. -/

theorem fieldOp_of_and_F000 (h : w &&& 0xF000 = v &&& 0xF000) : fieldOp w = fieldOp v := by
  rw [← formNNN_fields w, ← formNNN_fields v, formNNN, formNNN, and_F000, and_F000] at h
  exact (BitVec.append_left_inj _).1 h

theorem fields_of_and_F00F (h : w &&& 0xF00F = v &&& 0xF00F) : fieldOp w = fieldOp v ∧ fieldN w = fieldN v := by
  rw [word_eq_nibbles w, word_eq_nibbles v, and_F00F, and_F00F] at h
  exact ⟨by simpa using congrArg fieldOp h, by simpa using congrArg fieldN h⟩

theorem fields_of_and_F0FF (h : w &&& 0xF0FF = v &&& 0xF0FF) : fieldOp w = fieldOp v ∧ fieldKK w = fieldKK v := by
  rw [← formXKK_fields w, ← formXKK_fields v, and_F0FF, and_F0FF] at h
  exact ⟨by simpa using congrArg fieldOp h, by simpa using congrArg fieldKK h⟩

/-- Row by row: the fields that the mask keeps are those that the decoder selects on. -/
theorem decodeWord_of_and_mask (j : Instr) (h : w &&& j.mask = j.pattern) :
    ∃ i, decodeWord w = .ok i ∧ i.mask = j.mask ∧ i.pattern = j.pattern := by
  rw [← encode_and_mask] at h
  cases j
  case cls | ret =>
    cases (BitVec.and_allOnes (x := w)).symm.trans h
    exact ⟨_, rfl, rfl, rfl⟩
  case ldReg | orReg | andReg | xorReg | addReg | sub | shr | subn | shl =>
    obtain ⟨hop, hn⟩ := fields_of_and_F00F h
    rw [decodeWord_of_family8 (hop.trans (fieldOp_formXYN ..))]
    simp [decode8, hn, encode, Instr.mask, Instr.pattern]
  case skp | sknp =>
    obtain ⟨hop, hkk⟩ := fields_of_and_F0FF h
    rw [decodeWord_of_familyE (hop.trans (fieldOp_formXKK ..))]
    simp [decodeE, hkk, encode, Instr.mask, Instr.pattern]
  case ldVxDt | ldVxK | ldDtVx | ldStVx | addI | ldF | ldB | storeRegs | loadRegs =>
    obtain ⟨hop, hkk⟩ := fields_of_and_F0FF h
    rw [decodeWord_of_familyF (hop.trans (fieldOp_formXKK ..))]
    simp [decodeF, hkk, encode, Instr.mask, Instr.pattern]
  all_goals
    have hop := fieldOp_of_and_F000 h
    simp [decodeWord, hop, encode, Instr.mask, Instr.pattern]

/-! The words that are no instruction. -/

theorem decode0_of_ne (hcls : w ≠ 0x00E0) (hret : w ≠ 0x00EE) : decode0 w = .error (.family0 w) := by
  rw [decode0, if_neg hcls, if_neg hret]

theorem decode8_of_illegal (h : (fieldN w).toNat ∈ illegalNibbles8) : decode8 w = .error (.family8 w) := by
  have hne (n : BitVec 4) (hn : n.toNat ∉ illegalNibbles8) : fieldN w ≠ n := fun heq => hn (heq ▸ h)
  simp only [decode8]
  iterate 9 rw [if_neg (hne _ (by decide))]

theorem decodeE_of_illegal (h : (fieldKK w).toNat ∉ legalBytesE) : decodeE w = .error (.familyE w) := by
  have hne (kk : Byte) (hkk : kk.toNat ∈ legalBytesE) : fieldKK w ≠ kk := fun heq => h (heq ▸ hkk)
  rw [decodeE]
  iterate 2 rw [if_neg (hne _ (by decide))]

theorem decodeF_of_illegal (h : (fieldKK w).toNat ∉ legalBytesF) : decodeF w = .error (.familyF w) := by
  have hne (kk : Byte) (hkk : kk.toNat ∈ legalBytesF) : fieldKK w ≠ kk := fun heq => h (heq ▸ hkk)
  simp only [decodeF]
  iterate 9 rw [if_neg (hne _ (by decide))]

/-- Family by family, the converse of `illegalWord_of_decodeWord_error`. -/
theorem decodeWord_error_of_illegalWord (h : illegalWord w = true) : ∃ e, decodeWord w = .error e := by
  rcases (illegalWord_iff w).1 h with ⟨hop, hcls, hret⟩ | ⟨hop, hn⟩ | ⟨hop, hkk⟩ | ⟨hop, hkk⟩
  · exact ⟨_, (decodeWord_of_family0 hop).trans (decode0_of_ne hcls hret)⟩
  · exact ⟨_, (decodeWord_of_family8 hop).trans (decode8_of_illegal hn)⟩
  · exact ⟨_, (decodeWord_of_familyE hop).trans (decodeE_of_illegal hkk)⟩
  · exact ⟨_, (decodeWord_of_familyF hop).trans (decodeF_of_illegal hkk)⟩

end

/-! The statements. -/

/-- Settles O20: the word case by case over the instructions, the bytes by the word that they make up. -/
theorem decodeOfEncode : Obligations.DecodeOfEncode :=
  fun i => ⟨decodeWord_encode i, decodeBytes_of_decodeWord (decodeWord_encode i)⟩

/-- Settles O21: the canonical spelling is the word, but for the low nibble of families 5 and 9. -/
theorem encodeOfDecode : Obligations.EncodeOfDecode := fun _ _ => encode_eq_canonicalWord

/-- Settles O22: each way by the fields that the row's mask keeps. -/
theorem everyWordOneRow : Obligations.EveryWordOneRow :=
  fun _ => ⟨fun _ => and_mask_of_decodeWord, decodeWord_of_and_mask⟩

/-- Settles O23: the decoder answers an error exactly on the words of the table. -/
theorem illegalWordsRejected : Obligations.IllegalWordsRejected := by
  intro w
  constructor
  · rintro ⟨i, hi⟩
    by_contra hillegal
    obtain ⟨e, he⟩ := decodeWord_error_of_illegalWord (Bool.eq_true_of_not_eq_false hillegal)
    cases hi.symm.trans he
  · intro hlegal
    cases hd : decodeWord w with
    | ok i => exact ⟨i, rfl⟩
    | error e => cases hlegal.symm.trans (illegalWord_of_decodeWord_error hd)

/-- Settles O19: each word is the encoding of its instruction. -/
theorem decodeSamples : Obligations.DecodeSamples :=
  ⟨decodeWord_encode .cls, decodeWord_encode (.jp 0x205), decodeWord_encode (.call 0xABC),
    decodeWord_encode (.seImm 0xA 0x07), decodeWord_encode (.sneImm 0xA 0x07), decodeWord_encode (.seReg 0x1 0x2),
    decodeWord_encode (.ldImm 0xF 0x12), decodeWord_encode (.addImm 0x1 0xFF), decodeWord_encode (.subn 0x1 0x2),
    decodeWord_encode (.sneReg 0x1 0x2), decodeWord_encode (.ldI 0x2F0), decodeWord_encode (.jpV0 0x300),
    decodeWord_encode (.rnd 0x1 0x0F), decodeWord_encode (.drw 0x1 0x2 0x5), decodeWord_encode (.sknp 0x3),
    decodeWord_encode (.storeRegs 0x2)⟩

end Sys2Proof
end

section
/-! PROOFS of the family 40_dispatch.md: the fetch and its faults, what `mode` holds, and which inputs an instruction reads. -/

namespace Sys2Proof.Machine

/-! The cycle event, by what its fetch finds (60_exceptions.md R261). -/

section
variable {s t : State} {i : Instr}

theorem cycle_of_ok (hf : s.fault = none) (hpc : s.pc.toNat ≤ 0xFFE) (hd : decodeWord s.fetchWord = .ok i) (b : Byte) :
    eventStep (.cycle b) s = exec i (s.latchRnd b).closeBoot.preAdvance :=
  (cycleEvent_of_noFault b s hf).trans (runCycle_of_ok (s.latchRnd b).closeBoot i hpc hd)

theorem cycle_of_illegalWord (hf : s.fault = none) (hpc : s.pc.toNat ≤ 0xFFE) (hw : illegalWord s.fetchWord = true)
    (b : Byte) : eventStep (.cycle b) s
      = .next { (s.latchRnd b).closeBoot.preAdvance with fault := some (.decode s.pc s.fetchWord) } := by
  obtain ⟨e, he⟩ := decodeWord_error_of_illegalWord hw
  exact (cycleEvent_of_noFault b s hf).trans (runCycle_of_error (s.latchRnd b).closeBoot e hpc he)

theorem cycle_of_pc_gt (hf : s.fault = none) (hpc : s.pc.toNat > 0xFFE) (b : Byte) :
    eventStep (.cycle b) s = .next { (s.latchRnd b).closeBoot with fault := some (.fetchRange s.pc) } :=
  (cycleEvent_of_noFault b s hf).trans (runCycle_of_gt (s.latchRnd b).closeBoot hpc)

theorem onlyChanges_of_parts {ps : List Part} (h : ∀ p, p ∈ ps ∨ Unchanged p s t) : OnlyChanges ps s t :=
  fun p hp => ((h p).resolve_left hp).same

end

/-- Settles O5: the step takes the event and leaves `pc`, memory and the fault record to the cycle as they were. -/
theorem stepRunsDecoded : Obligations.StepRunsDecoded := by
  intro s i hf hpc hd
  refine ⟨cycle_of_ok hf hpc hd, fun b es h => ?_, fun h hcycles => ?_⟩
  · exact (step_of_inputs_cons h).trans (cycle_of_ok (s := { s with host := { s.host with inputs := es } }) hf hpc hd b)
  · rw [step_of_inputs_nil h, hcycles, scheduled_cyclesOnly]
    exact cycle_of_ok (s := { s with host := { s.host with freeCount := s.host.freeCount + 1 } }) hf hpc hd _

/-- Settles O6. -/
theorem fetchRangeFaults : Obligations.FetchRangeFaults := by
  intro b s hf hpc
  refine ⟨_, cycle_of_pc_gt hf hpc b, rfl, onlyChanges_of_parts fun p => ?_⟩
  cases p <;> simp [Unchanged]

/-- Settles O7: the decoder rejects the words of the table of R99. -/
theorem decodeFaults : Obligations.DecodeFaults := by
  intro b s hf hpc hw
  refine ⟨_, cycle_of_illegalWord hf hpc hw b, rfl, rfl, onlyChanges_of_parts fun p => ?_⟩
  cases p <;> simp [Unchanged]

/-- Settles O8. -/
theorem haltedMachineStands : Obligations.HaltedMachineStands := by
  intro s f b hf
  have hhalted : s.fault ≠ none := hf ▸ Option.some_ne_none f
  exact ⟨cycleEvent_of_fault b s hhalted, tickEvent_of_fault s hhalted⟩

/-! What `mode` holds after a handler (40_dispatch.md R126). -/

section
variable {s t : State} {i : Instr} {x : RegNum}

theorem exec_ldVxK_of_none (h : ∀ k : Fin 16, s.key[k.val] = false) :
    exec (.ldVxK x) s = .next { s with pc := s.pc - 2, mode := .awaitingKey x } := by
  simp only [exec, execLdVxK, (pressedKeys_eq_nil_iff s.key).2 h]

theorem exec_ldVxK_of_pressed (h : ∃ k : Fin 16, s.key[k.val] = true) :
    exec (.ldVxK x) s = (s.setReg x (BitVec.ofNat 8 (keyPick s.key).val)).complete := by
  obtain ⟨k, hk⟩ := h
  obtain ⟨k', ks, hkeys⟩ := List.exists_cons_of_ne_nil (List.ne_nil_of_mem ((mem_pressedKeys s.key k).2 hk))
  simp only [exec, execLdVxK, hkeys]

theorem none_or_some_pressed (key : Vector Bool 16) :
    (∀ k : Fin 16, key[k.val] = false) ∨ ∃ k : Fin 16, key[k.val] = true := by
  by_cases h : ∃ k : Fin 16, key[k.val] = true
  · exact .inr h
  · exact .inl fun k => Bool.eq_false_of_not_eq_true fun hk => h ⟨k, hk⟩

/-- An answer that records a fault on `s` or completes on some state: `mode` stays or becomes Running. -/
def RaisesOrCompletes (s : State) (r : Result) : Prop := (∃ f, r = s.raise f) ∨ ∃ u : State, r = u.complete

theorem exec_raisesOrCompletes (i : Instr) (s : State) (hi : ∀ x, i ≠ .ldVxK x) : RaisesOrCompletes s (exec i s) := by
  have raise {f : Fault} : RaisesOrCompletes s (s.raise f) := .inl ⟨f, rfl⟩
  have complete {u : State} : RaisesOrCompletes s u.complete := .inr ⟨u, rfl⟩
  cases i
  case ldVxK x => exact absurd rfl (hi x)
  case ret | drw | ldB | storeRegs | loadRegs =>
    exact iteInduction (motive := RaisesOrCompletes s) (fun _ => raise) fun _ => complete
  case call | skp | sknp =>
    simp only [exec, execCall, execSkp, execSknp]
    split
    · exact complete
    · exact raise
  all_goals exact complete

theorem Raises.ne_ldVxK {f : Fault} (h : Raises s i f) (x : RegNum) : i ≠ .ldVxK x := by
  rintro rfl
  simpa [mayWrite] using h.fault_mem_mayWrite

/-- How a handler can end: with a fault, on a waiting `Fx0A`, or completed. -/
theorem exec_end_cases (hs : s.fault = none) (h : exec i s = .next t) :
    (∃ f, Raises s i f ∧ t = { s with fault := some f })
    ∨ (∃ x, i = .ldVxK x ∧ (∀ k : Fin 16, s.key[k.val] = false)
        ∧ t = { s with pc := s.pc - 2, mode := .awaitingKey x })
    ∨ (t.fault = none ∧ t.mode = .running ∧ ∀ x, i = .ldVxK x → ∃ k : Fin 16, s.key[k.val] = true) := by
  rcases exec_cases h with hraises | hframed
  · exact .inl hraises
  have htf : t.fault = none := hframed.fault.trans hs
  by_cases hi : ∃ x, i = .ldVxK x
  · obtain ⟨x, rfl⟩ := hi
    rcases none_or_some_pressed s.key with hnone | hsome
    · cases (exec_ldVxK_of_none hnone).symm.trans h
      exact .inr (.inl ⟨x, rfl, hnone, rfl⟩)
    · cases (exec_ldVxK_of_pressed hsome).symm.trans h
      exact .inr (.inr ⟨htf, rfl, fun _ _ => hsome⟩)
  · have hne (x : RegNum) : i ≠ .ldVxK x := fun hx => hi ⟨x, hx⟩
    rcases exec_raisesOrCompletes i s hne with ⟨f, hf⟩ | ⟨u, hu⟩
    · cases hf.symm.trans h
      cases htf
    · cases hu.symm.trans h
      exact .inr (.inr ⟨htf, rfl, fun x hx => absurd hx (hne x)⟩)

end

/-- Settles O32: one clause for each way in which a handler can end. -/
theorem modeAfterInstruction : Obligations.ModeAfterInstruction := by
  intro i s t hs h
  rcases exec_end_cases hs h with ⟨f, hraises, rfl⟩ | ⟨x, rfl, hnone, rfl⟩ | ⟨htf, hmode, hsome⟩
  · exact ⟨fun _ => rfl, fun x hx => absurd hx (hraises.ne_ldVxK x), nofun⟩
  · refine ⟨absurd hs, fun y hy _ => by cases hy; rfl, fun _ hsome => ?_⟩
    obtain ⟨k, hk⟩ := hsome x rfl
    cases (hnone k).symm.trans hk
  · refine ⟨absurd htf, fun x hx hnone => ?_, fun _ _ => hmode⟩
    obtain ⟨k, hk⟩ := hsome x hx
    cases (hnone k).symm.trans hk

/-! While the machine waits for a key. -/

section
variable {s t : State} {x : RegNum}

theorem WaitInv.decode (hs : WaitInv s) (hx : s.mode = .awaitingKey x) :
    s.pc.toNat ≤ 0xFFE ∧ decodeWord s.fetchWord = .ok (.ldVxK x) := by
  obtain ⟨-, hcan, hword, -⟩ := hs x hx
  exact ⟨(canFetch_iff s).1 hcan, hword ▸ decodeWord_encode _⟩

theorem WaitInv.closeBoot (hs : WaitInv s) : WaitInv s.closeBoot := by
  intro x hx
  obtain ⟨hfault, hcan, hword, -⟩ := hs x hx
  exact ⟨hfault, hcan, hword, rfl⟩

/-- A machine that waits fetches its `Fx0A`, which raises no fault; one that does not wait begins to on an `Fx0A` only, which
puts `pc` back onto itself. -/
theorem runCycle_keeps_waitInv (hs : WaitInv s) (hfault : s.fault = none) (hboot : s.host.bootOpen = false)
    (h : runCycle s = .next t) : WaitInv t := by
  intro x hx
  rcases runCycle_cases s t h with ⟨hpc, rfl⟩ | ⟨-, ⟨e, he⟩, rfl⟩ | ⟨hpc, i, hi, hexec⟩
  · exact absurd (hs.decode hx).1 (not_le.2 hpc)
  · cases he.symm.trans (hs.decode hx).2
  · rcases exec_end_cases (s := s.preAdvance) hfault hexec with ⟨f, hraises, rfl⟩ | ⟨y, rfl, -, rfl⟩ | ⟨-, hmode, -⟩
    · cases hi.symm.trans (hs.decode hx).2
      exact absurd rfl (hraises.ne_ldVxK x)
    · cases hx
      have hback : s.preAdvance.pc - 2 = s.pc := preAdvance_thisPc s
      refine ⟨hfault, (canFetch_iff _).2 (hback.symm ▸ hpc), ?_, hboot⟩
      rw [fetchWord_congr s { s.preAdvance with pc := s.preAdvance.pc - 2, mode := .awaitingKey x } rfl hback]
      exact (encode_of_decodeWord hi (by simp)).symm
    · cases hmode.symm.trans hx

theorem eventStep_keeps_waitInv {e : HostEvent} (hs : WaitInv s) (h : eventStep e s = .next t) : WaitInv t := by
  rcases eventStep_cases e s t h with ⟨-, rfl⟩ | ⟨_, -, -, -, rfl⟩ | ⟨_, -, hopen, -, rfl⟩ | ⟨_, _, -, rfl⟩
    | ⟨-, -, rfl⟩ | ⟨-, -, rfl⟩ | ⟨b, -, hfault, hrun⟩
  · rintro _ ⟨⟩
  · exact hs
  · intro x hx
    obtain ⟨-, -, -, hboot⟩ := hs x hx
    cases hopen.symm.trans hboot
  · exact hs
  · exact hs
  · exact WaitInv.closeBoot (s := { s with dt := countDown s.dt, st := countDown s.st }) hs
  · exact runCycle_keeps_waitInv (WaitInv.closeBoot (s := s.latchRnd b) hs) hfault rfl hrun

end

/-- Settles O26: a cycle keeps the wait or ends it, `load_rom` is refused while it lasts, a reset ends it, and no other event
touches what it speaks of. -/
theorem stepKeepsWait : Obligations.StepKeepsWait := by
  intro s t hs h
  obtain ⟨host, hboot, hevent⟩ := eventStep_of_step h
  refine eventStep_keeps_waitInv (s := { s with host := host }) (fun x hx => ?_) hevent
  obtain ⟨hfault, hcan, hword, hclosed⟩ := hs x hx
  exact ⟨hfault, hcan, hword, hboot.trans hclosed⟩

/-! Which inputs an instruction reads (40_dispatch.md R128). -/

/-- One of the inputs of a handler that the host or the timers change, with a value to overwrite it. -/
inductive InputWrite where
  | rnd (b : Byte)
  | key (k : Vector Bool 16)
  | delay (b : Byte)
  | sound (b : Byte)

/-- The state with the input overwritten. -/
def InputWrite.put : InputWrite → State → State
  | .rnd b, s => s.latchRnd b
  | .key k, s => { s with key := k }
  | .delay b, s => { s with dt := b }
  | .sound b, s => { s with st := b }

/-- The instruction neither reads nor writes the input. -/
def InputWrite.Foreign : InputWrite → Instr → Prop
  | .rnd _, i => ∀ x kk, i ≠ .rnd x kk
  | .key _, i => ∀ x, i ≠ .skp x ∧ i ≠ .sknp x ∧ i ≠ .ldVxK x
  | .delay _, i => ∀ x, i ≠ .ldVxDt x ∧ i ≠ .ldDtVx x
  | .sound _, i => ∀ x, i ≠ .ldStVx x

/-- The answer with its next state changed. -/
def Result.mapState (f : State → State) : Result → Result
  | .next t => .next (f t)
  | .fault r => .fault r
  | .refused r => .refused r

section
variable (w : InputWrite) (s : State)

theorem skipIf_put (c : Bool) : (w.put s).skipIf c = w.put (s.skipIf c) := by
  cases w <;> cases c <;> rfl

theorem setRegsFrom_put (k : Nat) (bs : List Byte) : (w.put s).setRegsFrom k bs = w.put (s.setRegsFrom k bs) := by
  induction bs generalizing s k with
  | nil => rfl
  | cons b bs ih =>
    have hset : (w.put s).setReg (BitVec.ofNat 4 k) b = w.put (s.setReg (BitVec.ofNat 4 k) b) := by cases w <;> rfl
    rw [State.setRegsFrom, hset, ih, State.setRegsFrom]

theorem regsFrom_put (k len : Nat) : (w.put s).regsFrom k len = s.regsFrom k len := by
  have hreg (r : RegNum) : (w.put s).reg r = s.reg r := by cases w <;> rfl
  induction len generalizing k with
  | zero => rfl
  | succ n ih => rw [State.regsFrom, hreg, ih, State.regsFrom]

theorem complete_put {s t : State} (h : t = w.put s) : t.complete = Result.mapState w.put s.complete := by
  subst h
  cases w <;> rfl

theorem ite_mapState {f : State → State} {p : Prop} [Decidable p] {r r' u u' : Result}
    (hr : r' = Result.mapState f r) (hu : u' = Result.mapState f u) :
    (if p then r' else u') = Result.mapState f (if p then r else u) := by
  rw [apply_ite (Result.mapState f), hr, hu]

theorem dite_mapState {f : State → State} {p : Prop} [Decidable p] {r r' : p → Result} {u u' : ¬p → Result}
    (hr : ∀ h, r' h = Result.mapState f (r h)) (hu : ∀ h, u' h = Result.mapState f (u h)) :
    (if h : p then r' h else u' h) = Result.mapState f (if h : p then r h else u h) := by
  rw [apply_dite (Result.mapState f), funext hr, funext hu]

theorem exec_ldVxK_put (x : RegNum) (hkey : (w.put s).key = s.key) :
    exec (.ldVxK x) (w.put s) = Result.mapState w.put (exec (.ldVxK x) s) := by
  rcases none_or_some_pressed s.key with h | h
  · rw [exec_ldVxK_of_none h, exec_ldVxK_of_none (hkey ▸ h)]
    cases w <;> rfl
  · rw [exec_ldVxK_of_pressed h, exec_ldVxK_of_pressed (hkey ▸ h), hkey]
    cases w <;> rfl

/-- A handler to which an input is foreign does the same with another value of it. -/
theorem exec_put (i : Instr) (h : w.Foreign i) : exec i (w.put s) = Result.mapState w.put (exec i s) := by
  have hskip (c : Bool) : ((w.put s).skipIf c).complete = Result.mapState w.put (s.skipIf c).complete :=
    complete_put w (skipIf_put w s c)
  cases i
  case rnd x kk =>
    cases w with
    | rnd => exact absurd rfl (h x kk)
    | _ => rfl
  case skp x =>
    cases w with
    | key => exact absurd rfl (h x).1
    | _ => exact dite_mapState (fun _ => hskip _) fun _ => rfl
  case sknp x =>
    cases w with
    | key => exact absurd rfl (h x).2.1
    | _ => exact dite_mapState (fun _ => hskip _) fun _ => rfl
  case ldVxK x =>
    refine exec_ldVxK_put w s x ?_
    cases w with
    | key => exact absurd rfl (h x).2.2
    | _ => rfl
  case ldVxDt x =>
    cases w with
    | delay => exact absurd rfl (h x).1
    | _ => rfl
  case ldDtVx x =>
    cases w with
    | delay => exact absurd rfl (h x).2
    | _ => rfl
  case ldStVx x =>
    cases w with
    | sound => exact absurd rfl (h x)
    | _ => rfl
  case seImm | sneImm | seReg | sneReg => cases w <;> exact hskip _
  case call => cases w <;> exact dite_mapState (fun _ => rfl) fun _ => rfl
  case ret | drw | ldB => cases w <;> exact ite_mapState rfl rfl
  case storeRegs x =>
    have hregs := regsFrom_put w s 0 (regCount x)
    cases w <;> exact ite_mapState rfl (complete_put _ (by rw [hregs]; rfl))
  case loadRegs =>
    cases w <;> exact ite_mapState rfl (complete_put _ (setRegsFrom_put _ s _ _))
  all_goals cases w <;> rfl

end

/-- Settles O34: each clause is `exec_put` for one of the four inputs. -/
theorem inputsReadOnlyWhereNamed : Obligations.InputsReadOnlyWhereNamed := by
  intro i s t h
  have hput (w : InputWrite) (hw : w.Foreign i) : exec i (w.put s) = .next (w.put t) := by
    rw [exec_put w s i hw, h, Result.mapState]
  exact ⟨fun hi b => hput (.rnd b) hi, fun hi k => hput (.key k) hi, fun hi b => hput (.delay b) hi,
    fun hi b => hput (.sound b) hi⟩

end Sys2Proof.Machine
end

section
/-! PROOFS of the family 41_control_flow.md: jumps, skips on registers, calls and returns. -/

namespace Sys2Proof.Machine

/-! Instructions that move `pc` alone. -/

section
variable {i : Instr} {s : State}

/-- An instruction whose row of 10_state.md R20 names `pc` alone goes to the `pc` of the state that it completes on. -/
theorem goesTo_of_complete {u : State} {target : Word} (hparts : mayWrite i = [.pc, .mode])
    (h : exec i s = u.complete) (hpc : u.pc = target) : GoesTo i target s :=
  ⟨_, h, hpc, hparts ▸ (instructionFrames i s _ h).1, rfl⟩

theorem goesTo_of_skipIf {p : Prop} [Decidable p] (hparts : mayWrite i = [.pc, .mode])
    (h : exec i s = (s.skipIf (decide p)).complete) : GoesTo i (if p then s.pc + 2 else s.pc) s :=
  goesTo_of_complete hparts h (by simp)

theorem goesTo_of_skipIf_not {p : Prop} [Decidable p] (hparts : mayWrite i = [.pc, .mode])
    (h : exec i s = (s.skipIf (decide ¬p)).complete) : GoesTo i (if p then s.pc else s.pc + 2) s := by
  have hgoes := goesTo_of_skipIf hparts h
  rwa [ite_not] at hgoes

end

theorem ofNat_toNat_addr (nnn : Addr) : BitVec.ofNat 16 nnn.toNat = addrWord nnn := BitVec.ofNat_toNat 16 nnn

theorem ofNat_offset (nnn : Addr) (b : Byte) : BitVec.ofNat 16 (nnn.toNat + b.toNat) = offsetTarget nnn b := by
  rw [← offsetTarget_toNat, BitVec.ofNat_toNat, BitVec.setWidth_eq]

/-- Settles O52: the two targets, as 16-bit words, are the numbers that the statement names. -/
theorem jumps : Obligations.Jumps := by
  intro nnn s
  rw [ofNat_toNat_addr, ofNat_offset]
  refine ⟨⟨decodeWord_encode (.jp nnn), goesTo_of_complete rfl rfl rfl⟩,
    ⟨decodeWord_encode (.jpV0 nnn), goesTo_of_complete rfl rfl rfl, ?_⟩⟩
  have hnnn := nnn.isLt
  have hv0 := (s.reg 0).isLt
  omega

/-! The low nibble of families 5 and 9 is not examined (30_encoding.md R97). -/

theorem decodeWord_formXYN_5 (x y : RegNum) (n : BitVec 4) : decodeWord (formXYN 0x5 x y n) = .ok (.seReg x y) := by
  rw [decodeWord_of_family5 (fieldOp_formXYN ..), fieldX_formXYN, fieldY_formXYN]

theorem decodeWord_formXYN_9 (x y : RegNum) (n : BitVec 4) : decodeWord (formXYN 0x9 x y n) = .ok (.sneReg x y) := by
  rw [decodeWord_of_family9 (fieldOp_formXYN ..), fieldX_formXYN, fieldY_formXYN]

/-- Settles O56: each skip completes on `skipIf` of its own comparison. -/
theorem skips : Obligations.Skips := by
  intro x y kk n s
  exact ⟨⟨decodeWord_encode (.seImm x kk), goesTo_of_skipIf rfl rfl⟩,
    ⟨decodeWord_encode (.sneImm x kk), goesTo_of_skipIf_not rfl rfl⟩,
    ⟨decodeWord_formXYN_5 x y n, goesTo_of_skipIf rfl rfl⟩,
    ⟨decodeWord_formXYN_9 x y n, goesTo_of_skipIf_not rfl rfl⟩⟩

/-! The call and the return. -/

section
variable {s : State}

theorem exec_call_of_full {nnn : Addr} (h : s.sp.val = 16) :
    exec (.call nnn) s = s.raise (.stackOverflow s.thisPc (encode (.call nnn))) := dif_neg (by omega)

theorem exec_ret_of_empty (h : s.sp.val = 0) : exec .ret s = s.raise (.stackUnderflow s.thisPc (encode .ret)) :=
  if_pos h

end

/-- Settles O53, by the two answers of the call: with room on the stack and without. -/
theorem callPushes : Obligations.CallPushes := by
  intro nnn s
  refine ⟨decodeWord_encode (.call nnn), fun hroom => ?_, fun hfull => exec_call_of_full hfull⟩
  refine ⟨_, exec_call_of_room hroom, Vector.getElem_set_self _, fun k hk hne => ?_, rfl, addrWord_toNat nnn,
    onlyChanges_of_parts fun p => ?_, rfl⟩
  · exact Vector.getElem_set_ne hroom hk hne.symm
  · cases p <;> simp [Unchanged]

/-- Settles O54, by the two answers of the return: with a live entry and without. -/
theorem returnPops : Obligations.ReturnPops := by
  intro s
  refine ⟨decodeWord_encode .ret, fun k hk hsp => ?_, fun hempty => exec_ret_of_empty hempty⟩
  refine ⟨_, exec_ret_of_frame hk hsp, rfl, rfl, onlyChanges_of_parts fun p => ?_, rfl⟩
  cases p <;> simp [Unchanged]

end Sys2Proof.Machine
end

section
/-! PROOFS of the family 42_load_alu.md: loads, arithmetic, bitwise operations, shifts and the random byte, each by the register
write that it completes on. -/

namespace Sys2Proof.Machine

/-! Instructions that write `V[x]`, with a flag or without one. -/

section
variable {i : Instr} {x : RegNum} {b : Byte} {c : Bool} {s : State}

theorem writesReg_of_setReg (h : exec i s = (s.setReg x b).complete) (hparts : mayWrite i = [.regs, .mode] := by rfl)
    (hregs : writtenRegs i = [x] := by rfl) : WritesReg i x b s := by
  obtain ⟨hchanges, hkeeps⟩ := instructionFrames i s _ h
  exact ⟨_, h, State.reg_setReg_self s x b, hregs ▸ hkeeps, hparts ▸ hchanges, rfl⟩

/-- `VF` is written last, so it holds the flag whatever `x` is (10_state.md R23). -/
theorem writesRegFlag_of_setRegFlag (h : exec i s = (s.setRegFlag x b c).complete)
    (hparts : mayWrite i = [.regs, .mode] := by rfl) (hregs : writtenRegs i = [x, 15] := by rfl) :
    WritesRegFlag i x b (flagByte c) s := by
  obtain ⟨hchanges, hkeeps⟩ := instructionFrames i s _ h
  refine ⟨_, h, State.reg_setReg_self _ flagReg _, fun hx => ?_, hregs ▸ hkeeps, hparts ▸ hchanges, rfl⟩
  exact (State.reg_setReg_of_ne _ flagReg x _ hx).trans (State.reg_setReg_self s x b)

theorem flagByte_decide (p : Prop) [Decidable p] : flagByte (decide p) = if p then 1 else 0 := by simp [flagByte]

/-- The flag of a sum or a difference is a comparison. -/
theorem writesRegFlag_of_comparison {p : Prop} [Decidable p] (h : exec i s = (s.setRegFlag x b (decide p)).complete)
    (hparts : mayWrite i = [.regs, .mode] := by rfl) (hregs : writtenRegs i = [x, 15] := by rfl) :
    WritesRegFlag i x b (if p then 1 else 0) s :=
  flagByte_decide p ▸ writesRegFlag_of_setRegFlag h hparts hregs

theorem WritesReg.exists_result (h : WritesReg i x b s) : ∃ t, exec i s = .next t ∧ t.reg x = b := by
  obtain ⟨t, hexec, hreg, -⟩ := h
  exact ⟨t, hexec, hreg⟩

theorem WritesRegFlag.exists_flag {flag : Byte} (h : WritesRegFlag i x b flag s) :
    ∃ t, exec i s = .next t ∧ t.reg 15 = flag := by
  obtain ⟨t, hexec, hflag, -⟩ := h
  exact ⟨t, hexec, hflag⟩

end

/-! The handlers' operations on bytes, as the numbers that the rules give. -/

section
variable (a b : Byte)

theorem ofNat_sum : BitVec.ofNat 8 ((a.toNat + b.toNat) % 256) = a + b := by
  rw [← BitVec.toNat_add a b, BitVec.ofNat_toNat, BitVec.setWidth_eq]

theorem ofNat_difference : BitVec.ofNat 8 ((a.toNat + 256 - b.toNat) % 256) = a - b := by
  have hb := b.isLt
  apply BitVec.eq_of_toNat_eq
  rw [BitVec.toNat_ofNat, BitVec.toNat_sub]
  omega

theorem ofNat_half : BitVec.ofNat 8 (a.toNat / 2) = a >>> 1 := by
  apply BitVec.eq_of_toNat_eq
  rw [BitVec.toNat_ofNat, BitVec.toNat_ushiftRight, Nat.shiftRight_eq_div_pow]
  omega

theorem ofNat_double : BitVec.ofNat 8 (2 * a.toNat % 256) = a <<< 1 := by
  apply BitVec.eq_of_toNat_eq
  rw [BitVec.toNat_ofNat, BitVec.toNat_shiftLeft, Nat.shiftLeft_eq]
  omega

theorem ofNat_bit (k : Nat) : BitVec.ofNat 8 (a.toNat / 2 ^ k % 2) = flagByte (a.getLsbD k) := by
  rw [← Nat.toNat_testBit, BitVec.testBit_toNat]
  cases a.getLsbD k <;> rfl

theorem ofNat_lowBit : BitVec.ofNat 8 (a.toNat % 2) = flagByte (lowBitFlag a) := by
  rw [lowBitFlag, ← ofNat_bit, pow_zero, Nat.div_one]

theorem ofNat_highBit : BitVec.ofNat 8 (a.toNat / 128) = flagByte (highBitFlag a) := by
  have ha := a.isLt
  have hbit : a.toNat / 2 ^ 7 % 2 = a.toNat / 128 := by omega
  rw [highBitFlag, ← ofNat_bit, hbit]

end

/-! The statements. -/

/-- Settles O36. -/
theorem loadForms : Obligations.LoadForms := by
  intro x y kk s
  exact ⟨⟨decodeWord_encode (.ldImm x kk), writesReg_of_setReg rfl⟩,
    ⟨decodeWord_encode (.ldReg x y), writesReg_of_setReg rfl⟩⟩

/-- Settles O37: the sum of two bytes is their sum modulo 256. -/
theorem addImmediate : Obligations.AddImmediate := by
  intro x kk s
  rw [ofNat_sum]
  exact ⟨decodeWord_encode (.addImm x kk), writesReg_of_setReg rfl⟩

/-- Settles O38: the byte written is the bitwise combination of the operands. -/
theorem bitwiseForms : Obligations.BitwiseForms := by
  intro x y s
  exact ⟨⟨decodeWord_encode (.orReg x y), _, fun _ => BitVec.getLsbD_or, writesReg_of_setReg rfl⟩,
    ⟨decodeWord_encode (.andReg x y), _, fun _ => BitVec.getLsbD_and, writesReg_of_setReg rfl⟩,
    ⟨decodeWord_encode (.xorReg x y), _, fun _ => BitVec.getLsbD_xor, writesReg_of_setReg rfl⟩⟩

/-- Settles O39: the carry is a comparison of the sum before it is truncated. -/
theorem addRegisters : Obligations.AddRegisters := by
  intro x y s
  rw [ofNat_sum]
  exact ⟨decodeWord_encode (.addReg x y), writesRegFlag_of_comparison rfl⟩

/-- Settles O40: the flag compares the operands in the order of the difference. -/
theorem subtractions : Obligations.Subtractions := by
  intro x y s
  rw [ofNat_difference, ofNat_difference]
  exact ⟨⟨decodeWord_encode (.sub x y), writesRegFlag_of_comparison rfl⟩,
    ⟨decodeWord_encode (.subn x y), writesRegFlag_of_comparison rfl⟩⟩

/-- Settles O41: the results are `V[x] >>> 1` and `V[x] <<< 1`, the flags the bits 0 and 7 of `V[x]`. -/
theorem shifts : Obligations.Shifts := by
  intro x y s
  rw [ofNat_half, ofNat_lowBit, ofNat_double, ofNat_highBit]
  exact ⟨⟨decodeWord_encode (.shr x y), writesRegFlag_of_setRegFlag rfl⟩,
    ⟨decodeWord_encode (.shl x y), writesRegFlag_of_setRegFlag rfl⟩⟩

theorem rnd_writesReg (x : RegNum) (kk : Byte) (s : State) : WritesReg (.rnd x kk) x (s.host.rnd &&& kk) s :=
  writesReg_of_setReg rfl

/-- Settles O42: `rnd &&& kk` has no bit outside `kk`. -/
theorem randomMasked : Obligations.RandomMasked := by
  intro x kk b s
  refine ⟨decodeWord_encode (.rnd x kk), fun hb => hb ▸ rnd_writesReg x kk s, fun t ht => ?_⟩
  obtain ⟨u, hu, hreg⟩ := (rnd_writesReg x kk s).exists_result
  cases hu.symm.trans ht
  rw [hreg, BitVec.and_assoc, BitVec.and_not_self]
  exact BitVec.and_zero

/-- Settles O43: the rows without a flag end with their result in `VF`, the flag-writing rows with their flag. -/
theorem flagRegisterAsDestination : Obligations.FlagRegisterAsDestination := by
  intro y kk s
  have result {i : Instr} {b : Byte} (h : WritesReg i 15 b s) := h.exists_result
  have flag {i : Instr} {b f : Byte} (h : WritesRegFlag i 15 b f s) := h.exists_flag
  obtain ⟨t, hexec, hsum⟩ := result (i := .addImm 15 kk) (writesReg_of_setReg rfl)
  exact ⟨result (writesReg_of_setReg rfl), ⟨t, hexec, hsum ▸ BitVec.toNat_add ..⟩, result (writesReg_of_setReg rfl),
    result (writesReg_of_setReg rfl), result (writesReg_of_setReg rfl), result (writesReg_of_setReg rfl),
    flag (writesRegFlag_of_comparison rfl), flag (writesRegFlag_of_comparison rfl),
    flag (writesRegFlag_of_setRegFlag rfl), flag (writesRegFlag_of_comparison rfl),
    flag (writesRegFlag_of_setRegFlag rfl), result (rnd_writesReg 15 kk s)⟩

end Sys2Proof.Machine
end

section
/-! PROOFS of the family 43_index_memory.md: writes of the index register, and the stores and loads through it. -/

namespace Sys2Proof.Machine

/-! Instructions that write `I` alone. -/

section
variable {i : Instr} {s : State}

/-- An instruction whose row of 10_state.md R20 names `I` alone writes the `I` of the state that it completes on. -/
theorem writesIndex_of_complete {u : State} {a : Nat} (hparts : mayWrite i = [.index, .mode])
    (h : exec i s = u.complete) (hindex : u.i.toNat = a) : WritesIndex i a s :=
  ⟨_, h, hindex, hparts ▸ (instructionFrames i s _ h).1, rfl⟩

end

theorem toNat_add_byte (w : Word) (b : Byte) : (w + b.setWidth 16).toNat = (w.toNat + b.toNat) % 65536 := by
  have hb := b.isLt
  rw [BitVec.toNat_add, BitVec.toNat_setWidth_of_le (by decide)]

/-- Settles O44: each form completes on the word whose number the statement names. -/
theorem indexForms : Obligations.IndexForms := by
  intro nnn x s
  exact ⟨⟨decodeWord_encode (.ldI nnn), writesIndex_of_complete rfl rfl (addrWord_toNat nnn)⟩,
    ⟨decodeWord_encode (.addI x), writesIndex_of_complete rfl rfl (toNat_add_byte s.i (s.reg x))⟩,
    ⟨decodeWord_encode (.ldF x), writesIndex_of_complete rfl rfl (glyphAddr_toNat (s.reg x))⟩⟩

/-! Stores: consecutive bytes are written, and all else but `mode` stays. -/

section
variable {x : RegNum} {s : State} {a len : Nat} {bs : List Byte}

theorem keepsMemoryOutside_writeBytes (hlen : bs.length = len) :
    KeepsMemoryOutside a len s { s with mem := Memory.writeBytes s.mem a bs, mode := .running } :=
  fun b hb => Memory.read_writeBytes_of_outside s.mem a bs b (hlen ▸ hb)

theorem onlyChanges_mem_mode {m : Memory} {mode : Mode} :
    OnlyChanges [.mem, .mode] s { s with mem := m, mode := mode } :=
  onlyChanges_of_parts fun p => by cases p <;> simp [Unchanged]

/-- `Fx33` inside the address space: the three digits are written from `I` up (43_index_memory.md R193). -/
theorem exec_ldB_of_le (h : s.i.toNat + 2 ≤ 0xFFF) :
    exec (.ldB x) s = .next { s with
      mem := Memory.writeBytes s.mem s.i.toNat (bcdDigits (s.reg x))
      mode := .running } :=
  if_neg (by rw [Bool.not_eq_true, outOfRange_eq_false_iff]; exact h)

theorem faults_ldB_of_gt (h : s.i.toNat + 2 > 0xFFF) :
    Faults (.ldB x) (.memoryRange s.thisPc (encode (.ldB x)) s.i 3) s :=
  if_pos ((outOfRange_eq_true_iff _ _).2 h)

theorem faults_storeRegs_of_gt (h : s.i.toNat + x.toNat > 0xFFF) :
    Faults (.storeRegs x) (.memoryRange s.thisPc (encode (.storeRegs x)) s.i (x.toNat + 1)) s :=
  if_pos ((outOfRange_eq_true_iff _ _).2 h)

end

theorem bcdDigits_toNat (b : Byte) :
    ((bcdDigits b).getD 0 0).toNat = b.toNat / 100 ∧ ((bcdDigits b).getD 1 0).toNat = b.toNat / 10 % 10
      ∧ ((bcdDigits b).getD 2 0).toNat = b.toNat % 10 := by
  have hb := b.isLt
  refine ⟨?_, ?_, ?_⟩ <;> simp [bcdDigits] <;> omega

/-- Settles O45: the three bytes read as the digits of `V[x]`. -/
theorem storeBcd : Obligations.StoreBcd := by
  intro x s
  refine ⟨decodeWord_encode (.ldB x), fun hrange => ?_, fun hrange => faults_ldB_of_gt hrange⟩
  refine ⟨_, exec_ldB_of_le hrange, fun hwf => ?_, keepsMemoryOutside_writeBytes (bcdDigits_length _),
    onlyChanges_mem_mode, rfl⟩
  have hread (k : Nat) (hk : k < 3) := Memory.read_writeBytes s.mem s.i.toNat (bcdDigits (s.reg x)) k hwf
    (by rw [bcdDigits_length]; omega) hk
  obtain ⟨hhundreds, htens, hones⟩ := bcdDigits_toNat (s.reg x)
  exact ⟨(congrArg BitVec.toNat (hread 0 (by decide))).trans hhundreds,
    (congrArg BitVec.toNat (hread 1 (by decide))).trans htens,
    (congrArg BitVec.toNat (hread 2 (by decide))).trans hones⟩

/-- Settles O46: the byte at `I + k` reads as `Vk`. -/
theorem storeRegisters : Obligations.StoreRegisters := by
  intro x s
  refine ⟨decodeWord_encode (.storeRegs x), fun hrange => ?_, fun hrange => faults_storeRegs_of_gt hrange⟩
  refine ⟨_, exec_storeRegs_of_le hrange, fun hwf k hk => ?_, keepsMemoryOutside_writeBytes (State.regsFrom_length ..),
    onlyChanges_mem_mode, rfl⟩
  exact (read_storedRegs hwf hrange hk).trans (by rw [BitVec.ofNat_toNat, BitVec.setWidth_eq])

/-! Loads: consecutive registers are written, and all else but `mode` stays. -/

section
variable {x : RegNum} {s : State}

/-- `Fx65` inside the address space: the registers are written from `V0` up (43_index_memory.md R195). -/
theorem exec_loadRegs_of_le (h : s.i.toNat + x.toNat ≤ 0xFFF) :
    exec (.loadRegs x) s = (s.setRegsFrom 0 (Memory.readBytes s.mem s.i.toNat (regCount x))).complete :=
  if_neg (by rw [Bool.not_eq_true, outOfRange_eq_false_iff]; exact h)

theorem faults_loadRegs_of_gt (h : s.i.toNat + x.toNat > 0xFFF) :
    Faults (.loadRegs x) (.memoryRange s.thisPc (encode (.loadRegs x)) s.i (x.toNat + 1)) s :=
  if_pos ((outOfRange_eq_true_iff _ _).2 h)

/-- Where `Fx65` has loaded `V0..Vx`, `Vk` holds the byte at `I + k` up to `Vx`, and what it held above. -/
theorem reg_loadedRegs (a : Nat) (k : RegNum) :
    (s.setRegsFrom 0 (Memory.readBytes s.mem a (regCount x))).reg k
      = if k.toNat ≤ x.toNat then Memory.read s.mem (a + k.toNat) else s.reg k := by
  have hlen : (Memory.readBytes s.mem a (regCount x)).length = x.toNat + 1 := Memory.readBytes_length ..
  have hx := x.isLt
  rw [State.reg_setRegsFrom s k 0 _ (by omega), hlen]
  by_cases hk : k.toNat ≤ x.toNat
  · rw [if_pos (by omega), if_pos hk, Nat.sub_zero, Memory.readBytes_getD _ _ (regCount x) _ (Nat.lt_succ_of_le hk)]
  · rw [if_neg (by omega), if_neg hk]

theorem onlyChanges_setRegsFrom_mode {k : Nat} {bs : List Byte} {m : Mode} :
    OnlyChanges [.regs, .mode] s { s.setRegsFrom k bs with mode := m } :=
  onlyChanges_of_parts fun p => by cases p <;> simp [Unchanged]

end

/-- Settles O47, by the registers up to `Vx` and those above it. -/
theorem loadRegisters : Obligations.LoadRegisters := by
  intro x s
  refine ⟨decodeWord_encode (.loadRegs x), fun hrange => ?_, fun hrange => faults_loadRegs_of_gt hrange⟩
  refine ⟨_, exec_loadRegs_of_le hrange, fun k hk => ?_, fun k hk => ?_, onlyChanges_setRegsFrom_mode, rfl⟩
  · exact (reg_loadedRegs s.i.toNat k).trans (if_pos hk)
  · exact (reg_loadedRegs s.i.toNat k).trans (if_neg (Nat.not_le.2 hk))

end Sys2Proof.Machine
end

section
/-! PROOFS of the family 44_display.md: the cleared screen, what a draw leaves, and a second draw of the same sprite. -/

namespace Sys2Proof.Machine

theorem pixel_blank (r c : Nat) : Framebuffer.pixel (Vector.replicate 32 0) r c = false := by simp [Framebuffer.pixel]

/-- Settles O49: no pixel of 32 zero rows is on. -/
theorem clearDisplay : Obligations.ClearDisplay :=
  ⟨decodeWord_encode .cls, fun s => ⟨_, rfl, pixel_blank, (instructionFrames .cls s _ rfl).1, rfl⟩⟩

theorem flagByte_eq_one_iff (b : Bool) : flagByte b = 1 ↔ b = true := by revert b; decide

/-! The state that a draw leaves. -/

/-- The grid after the sprite of `Dxyn`, and whether a pixel was hit. -/
def drawnGrid (x y : RegNum) (n : BitVec 4) (s : State) : Framebuffer × Bool :=
  drawRows s.fb (startColumn (s.reg x)) (startRow (s.reg y)) (Memory.readBytes s.mem s.i.toNat n.toNat)

/-- The state that `Dxyn` leaves where it completes. -/
def drawnState (x y : RegNum) (n : BitVec 4) (s : State) : State :=
  { State.setReg { s with fb := (drawnGrid x y n s).1 } flagReg (flagByte (drawnGrid x y n s).2) with mode := .running }

/-- The collision of 44_display.md R212: a set sprite bit inside the grid meets a pixel that is on. -/
def SpriteCollides (x y : RegNum) (n : BitVec 4) (s : State) : Prop :=
  ∃ r c, r < 32 ∧ c < 64 ∧ spriteBit s x y n r c = true ∧ s.pixel r c = true

section
variable {x y : RegNum} {n : BitVec 4} {s u : State} {r c : Nat}

/-- The handler's range check fails exactly outside the range of 44_display.md R212. -/
theorem drw_check_iff : (decide (1 ≤ n.toNat) && outOfRange s.i.toNat n.toNat) = true ↔ ¬SpriteInRange s n := by
  have hempty : n = 0 ↔ n.toNat = 0 := BitVec.toNat_inj.symm
  rw [Bool.and_eq_true, decide_eq_true_eq, outOfRange_eq_true_iff, SpriteInRange, hempty]
  omega

theorem exec_drw_of_inRange (h : SpriteInRange s n) : exec (.drw x y n) s = .next (drawnState x y n s) :=
  if_neg (drw_check_iff.not.2 (not_not.2 h))

theorem faults_drw_of_not_inRange (h : ¬SpriteInRange s n) :
    Faults (.drw x y n) (.memoryRange s.thisPc (encode (.drw x y n)) s.i n.toNat) s :=
  if_pos (drw_check_iff.2 h)

/-- The bytes that the handler reads are those that `spriteBit` names. -/
theorem spriteBit_eq_readBytes : spriteBit s x y n r c
    = (decide (startRow (s.reg y) ≤ r ∧ r < startRow (s.reg y) + n.toNat)
      && (decide (startColumn (s.reg x) ≤ c ∧ c < startColumn (s.reg x) + 8)
        && ((Memory.readBytes s.mem s.i.toNat n.toNat).getD (r - startRow (s.reg y)) 0).getLsbD
          (7 - (c - startColumn (s.reg x))))) := by
  by_cases hrow : startRow (s.reg y) ≤ r ∧ r < startRow (s.reg y) + n.toNat
  · rw [Memory.readBytes_getD _ _ _ _ (by omega)]
    simp [spriteBit, startRow, startColumn, Bool.and_assoc]
  · rw [decide_eq_false hrow, Bool.false_and, spriteBit, Bool.and_eq_false_imp]
    exact fun h => absurd (of_decide_eq_true h) fun ⟨hlow, hhigh, _⟩ => hrow ⟨hlow, hhigh⟩

theorem drawnState_pixel (hr : r < 32) (hc : c < 64) :
    (drawnState x y n s).pixel r c = (s.pixel r c ^^ spriteBit s x y n r c) := by
  rw [spriteBit_eq_readBytes]
  exact (drawRows_pixel s.fb _ _ _ r c hr hc).trans (by rw [Memory.readBytes_length]; rfl)

theorem drawnGrid_collision : (drawnGrid x y n s).2 = true ↔ SpriteCollides x y n s := by
  rw [drawnGrid, drawRows_collision, Memory.readBytes_length]
  simp only [SpriteCollides, spriteBit_eq_readBytes, Bool.and_eq_true, decide_eq_true_eq, and_assoc, State.pixel]

theorem drawnState_flag : (drawnState x y n s).reg 15 = flagByte (drawnGrid x y n s).2 :=
  State.reg_setReg_self _ flagReg _

theorem drawnState_flag_eq_one_iff : (drawnState x y n s).reg 15 = 1 ↔ SpriteCollides x y n s := by
  rw [drawnState_flag, flagByte_eq_one_iff, drawnGrid_collision]

theorem drawnState_flag_of_not_collides (h : ¬SpriteCollides x y n s) : (drawnState x y n s).reg 15 = 0 := by
  rw [drawnState_flag, Bool.eq_false_of_not_eq_true (drawnGrid_collision.not.2 h)]
  rfl

theorem onlyChanges_drawnState : OnlyChanges [.regs, .fb, .mode] s (drawnState x y n s) :=
  onlyChanges_of_parts fun p => by cases p <;> simp [Unchanged, drawnState]

/-- A sprite is its bytes at its masked place. -/
theorem spriteBit_congr (hi : u.i = s.i) (hmem : ∀ a, Memory.read u.mem a = Memory.read s.mem a)
    (hx : u.reg x &&& 63 = s.reg x &&& 63) (hy : u.reg y &&& 31 = s.reg y &&& 31) :
    spriteBit u x y n = spriteBit s x y n := by
  funext r c
  simp only [spriteBit, hi, hmem, hx, hy]

end

/-- Settles O50, by the two answers of the draw: its range inside memory, or past the end. -/
theorem drawSprite : Obligations.DrawSprite := by
  intro x y n s
  refine ⟨decodeWord_encode (.drw x y n), fun hrange => ?_, fun hout => faults_drw_of_not_inRange hout⟩
  have hexec := exec_drw_of_inRange (x := x) (y := y) hrange
  exact ⟨_, hexec, fun _ _ hr hc => drawnState_pixel hr hc, drawnState_flag_eq_one_iff.2, drawnState_flag_of_not_collides,
    (instructionFrames _ s _ hexec).2, onlyChanges_drawnState, rfl⟩

/-- Settles O51: a pixel toggled twice is as before, and the second draw hits exactly what the first turned on. -/
theorem drawTwiceRestores : Obligations.DrawTwiceRestores := by
  intro x y n s t u hrange hexec hfb hi hmem hx hy
  cases (exec_drw_of_inRange hrange).symm.trans hexec
  have hsprite : spriteBit u x y n = spriteBit s x y n := spriteBit_congr hi hmem hx hy
  have hfirst (r c : Nat) (hr : r < 32) (hc : c < 64) : u.pixel r c = (s.pixel r c ^^ spriteBit s x y n r c) :=
    (congrArg (Framebuffer.pixel · r c) hfb).trans (drawnState_pixel hr hc)
  refine ⟨_, exec_drw_of_inRange (by rwa [SpriteInRange, hi]), fun r c hr hc => ?_, ?_⟩
  · rw [drawnState_pixel hr hc, hfirst r c hr hc, hsprite, Bool.xor_assoc, Bool.xor_self, Bool.xor_false]
  · rw [drawnState_flag_eq_one_iff, SpriteCollides, hsprite]
    refine exists₂_congr fun r c => and_congr_right fun hr => and_congr_right fun hc => ?_
    rw [hfirst r c hr hc, drawnState_pixel hr hc]
    cases s.pixel r c <;> simp

end Sys2Proof.Machine
end

section
/-! PROOFS of the family 45_keypad_timers.md: skips on a key, the wait for a key, and the timers read and written. -/

namespace Sys2Proof.Machine

/-! Skips on a key: the key that `V[x]` numbers decides the skip, and a number above 15 faults. -/

section
variable {i : Instr} {x : RegNum} {k : Fin 16} {s : State}

/-- What a skip leaves alone, read off the state: `Ex9E` and `ExA1` may also write the fault record (10_state.md R20), so
their row alone does not say that a skip keeps it. -/
theorem onlyChanges_skipIf_mode {c : Bool} {m : Mode} : OnlyChanges [.pc, .mode] s { s.skipIf c with mode := m } :=
  onlyChanges_of_parts fun p => by cases p <;> simp [Unchanged]

theorem goesTo_of_complete_skipIf {c : Bool} {target : Word} (h : exec i s = (s.skipIf c).complete)
    (hpc : (s.skipIf c).pc = target) : GoesTo i target s :=
  ⟨_, h, hpc, onlyChanges_skipIf_mode, rfl⟩

theorem State.skipIf_not_pc (s : State) (c : Bool) : (s.skipIf (!c)).pc = if c then s.pc else s.pc + 2 := by
  cases c <;> rfl

theorem exec_skp_of_key (h : (s.reg x).toNat = k.val) : exec (.skp x) s = (s.skipIf s.key[k.val]).complete := by
  simp only [exec, execSkp, h, k.isLt, ↓reduceDIte]

theorem exec_sknp_of_key (h : (s.reg x).toNat = k.val) : exec (.sknp x) s = (s.skipIf (!s.key[k.val])).complete := by
  simp only [exec, execSknp, h, k.isLt, ↓reduceDIte]

theorem faults_skp_of_gt (h : (s.reg x).toNat > 15) :
    Faults (.skp x) (.keyIndex s.thisPc (encode (.skp x)) (s.reg x)) s := dif_neg (Nat.not_lt.2 h)

theorem faults_sknp_of_gt (h : (s.reg x).toNat > 15) :
    Faults (.sknp x) (.keyIndex s.thisPc (encode (.sknp x)) (s.reg x)) s := dif_neg (Nat.not_lt.2 h)

end

/-- Settles O57, by whether `V[x]` numbers a key. -/
theorem keySkips : Obligations.KeySkips := by
  intro x s
  refine ⟨decodeWord_encode (.skp x), decodeWord_encode (.sknp x), fun k hk => ⟨?_, ?_⟩, fun hgt => ⟨?_, ?_⟩⟩
  · exact goesTo_of_complete_skipIf (exec_skp_of_key hk) (s.skipIf_pc _)
  · exact goesTo_of_complete_skipIf (exec_sknp_of_key hk) (s.skipIf_not_pc _)
  · exact faults_skp_of_gt hgt
  · exact faults_sknp_of_gt hgt

/-! The wait for a key. -/

theorem keyPick_pressed_of_exists {key : Vector Bool 16} (h : ∃ k : Fin 16, key[k.val] = true) :
    key[(keyPick key).val] = true := by
  obtain ⟨k, hk⟩ := h
  exact keyPick_pressed key (List.ne_nil_of_mem ((mem_pressedKeys key k).2 hk))

section
variable {i : Instr} {x : RegNum} {s : State} {m : Mode}

theorem onlyChanges_setReg_mode {b : Byte} : OnlyChanges [.regs, .mode] s { s.setReg x b with mode := m } :=
  onlyChanges_of_parts fun p => by cases p <;> simp [Unchanged]

theorem onlyChanges_pc_mode {pc : Word} : OnlyChanges [.pc, .mode] s { s with pc := pc, mode := m } :=
  onlyChanges_of_parts fun p => by cases p <;> simp [Unchanged]

/-- `Fx0A` may also write `pc` (10_state.md R20); where it completes on a register write, it does not. -/
theorem writesReg_of_complete_setReg {b : Byte} (hregs : writtenRegs i = [x])
    (h : exec i s = (s.setReg x b).complete) : WritesReg i x b s :=
  ⟨_, h, State.reg_setReg_self s x b, hregs ▸ (instructionFrames i s _ h).2, onlyChanges_setReg_mode, rfl⟩

end

/-- Settles O59, by whether some key is pressed; the key that the handler reports is then `keyPick`. -/
theorem waitForKey : Obligations.WaitForKey := by
  intro x s
  refine ⟨decodeWord_encode (.ldVxK x), fun hpressed => ?_, fun hnone => ?_⟩
  · exact ⟨keyPick s.key, keyPick_pressed_of_exists hpressed,
      writesReg_of_complete_setReg rfl (exec_ldVxK_of_pressed hpressed)⟩
  · exact ⟨_, exec_ldVxK_of_none hnone, rfl, rfl, onlyChanges_pc_mode⟩

/-- Settles O58: each form completes on the one register or timer that its rule writes. -/
theorem timerForms : Obligations.TimerForms := by
  intro x s
  exact ⟨⟨decodeWord_encode (.ldVxDt x), writesReg_of_setReg rfl⟩,
    ⟨decodeWord_encode (.ldDtVx x), _, rfl, rfl, (instructionFrames (.ldDtVx x) s _ rfl).1, rfl⟩,
    ⟨decodeWord_encode (.ldStVx x), _, rfl, rfl, rfl, (instructionFrames (.ldStVx x) s _ rfl).1, rfl⟩⟩

end Sys2Proof.Machine
end

section
/-! PROOFS of the family 60_exceptions.md: a fault is precise and stands until reset, where a MemoryRangeFault comes from, and
the two timers under one tick and under many. -/

namespace Sys2Proof.Machine

/-! Faults. -/

section
variable {i : Instr} {s t : State} {f : Fault}

/-- A handler that records a fault has raised it, and has done nothing else (60_exceptions.md R258). -/
theorem exec_newFault (hs : s.fault = none) (h : exec i s = .next t) (hf : t.fault = some f) :
    Raises s i f ∧ t = { s with fault := some f } := by
  rcases exec_cases h with ⟨g, hraises, rfl⟩ | hframed
  · cases hf
    exact ⟨hraises, rfl⟩
  · cases (hframed.fault.trans hs).symm.trans hf

/-- The four instructions that access memory through `I` (20_memory.md R65). -/
theorem instr_of_accessLen_pos (h : 1 ≤ accessLen i) :
    (∃ x y n, i = .drw x y n ∧ 1 ≤ n.toNat) ∨ ∃ x, i = .ldB x ∨ i = .storeRegs x ∨ i = .loadRegs x := by
  cases i
  case drw x y n => exact .inl ⟨x, y, n, rfl, h⟩
  case ldB x => exact .inr ⟨x, .inl rfl⟩
  case storeRegs x => exact .inr ⟨x, .inr (.inl rfl)⟩
  case loadRegs x => exact .inr ⟨x, .inr (.inr rfl)⟩
  all_goals cases h

/-- A halted machine after the launch meets no event that changes it but `reset` and `set_key`. -/
theorem eventStep_halted_cases {e : HostEvent} (h : eventStep e s = .next t) (hs : s.fault ≠ none)
    (hboot : s.host.bootOpen = false) (hreset : e ≠ .reset) :
    t = s ∨ ∃ k b, e = .setKey k b ∧ t = { s with key := s.key.set k.val b } := by
  rcases eventStep_cases e s t h with ⟨rfl, -⟩ | ⟨_, -, -, -, rfl⟩ | ⟨_, -, hopen, -, -⟩ | hkey | ⟨-, -, rfl⟩
    | ⟨-, hnone, -⟩ | ⟨_, -, hnone, -⟩
  · exact absurd rfl hreset
  · exact .inl rfl
  · cases hboot.symm.trans hopen
  · exact .inr hkey
  · exact .inl rfl
  · exact absurd hnone hs
  · exact absurd hnone hs

end

/-- Settles O30. -/
theorem faultsArePrecise : Obligations.FaultsArePrecise := by
  intro i s t hs h hf
  obtain ⟨f, hf⟩ := Option.ne_none_iff_exists'.1 hf
  rw [hf]
  exact (exec_newFault hs h hf).2

/-- Settles O48: each of the four forms checks its range, and an instruction that raises a MemoryRangeFault has an access whose
range the check refused. -/
theorem memoryRangeFaults : Obligations.MemoryRangeFaults := by
  intro x y n s
  refine ⟨fun hrange => faults_ldB_of_gt hrange,
    fun hrange => ⟨faults_storeRegs_of_gt hrange, faults_loadRegs_of_gt hrange⟩,
    fun hlen hrange => faults_drw_of_not_inRange fun hin => ?_, fun i t pc w a len hs h hf => ?_⟩
  · rcases hin with rfl | hin
    · cases hlen
    · exact absurd hrange (not_lt.2 hin)
  · cases (exec_newFault hs h hf).1
    case memoryRange hlen hrange => exact ⟨instr_of_accessLen_pos hlen, rfl, rfl, rfl, rfl, hrange⟩

/-- Settles O9: a recorded fault that fits came after the launch, so `load_rom` is refused, and of the other events only
`set_key` changes a halted machine. -/
theorem faultIsTerminal : Obligations.FaultIsTerminal := by
  intro s t f hinv hf h hreset
  obtain ⟨host, hboot, hevent⟩ := eventStep_of_step h
  have hhalted : s.fault ≠ none := hf ▸ Option.some_ne_none f
  rcases eventStep_halted_cases (s := { s with host := host }) hevent hhalted (hboot.trans (hinv f hf).2) hreset
    with rfl | ⟨k, b, hkey, rfl⟩
  · exact ⟨hf, onlyChanges_of_parts fun p => by cases p <;> simp [Unchanged], fun _ => rfl⟩
  · exact ⟨hf, onlyChanges_of_parts fun p => by cases p <;> simp [Unchanged], fun hother => absurd hkey (hother k b)⟩

/-! Ticks. -/

/-- The state that a tick leaves where no fault is recorded (60_exceptions.md R265). -/
def tickedState (s : State) : State := State.closeBoot { s with dt := countDown s.dt, st := countDown s.st }

section
variable {s t u : State} {p : Part} {ps : List Part}

theorem Same.trans (hst : Same p s t) (htu : Same p t u) : Same p s u := by
  cases p
  case regs | mem => exact fun a => (htu a).trans (hst a)
  all_goals exact Eq.trans htu hst

theorem OnlyChanges.trans (hst : OnlyChanges ps s t) (htu : OnlyChanges ps t u) : OnlyChanges ps s u :=
  fun p hp => (hst p hp).trans (htu p hp)

theorem onlyChanges_refl : OnlyChanges ps s s := onlyChanges_of_parts fun p => .inr (by cases p <;> rfl)

theorem tick_of_noFault (h : s.fault = none) : eventStep .tick s = .next (tickedState s) := tickEvent_of_noFault s h

theorem tickedState_dt : (tickedState s).dt.toNat = s.dt.toNat - 1 := countDown_toNat s.dt

theorem tickedState_st : (tickedState s).st.toNat = s.st.toNat - 1 := countDown_toNat s.st

theorem onlyChanges_tickedState {host : HostSide} :
    OnlyChanges [.delay, .sound, .host] s (tickedState { s with host := host }) :=
  onlyChanges_of_parts fun p => by cases p <;> simp [Unchanged, tickedState]

/-- A step that performs a listed tick leaves the rest of the list to come. -/
theorem step_of_tick_cons {es : List HostEvent} (hs : s.fault = none) (hinputs : s.host.inputs = .tick :: es) :
    ∃ t : State, step s = .next t ∧ t.fault = none ∧ t.dt.toNat = s.dt.toNat - 1 ∧ t.st.toNat = s.st.toNat - 1
      ∧ OnlyChanges [.delay, .sound, .host] s t ∧ t.host.inputs = es :=
  ⟨_, (step_of_inputs_cons hinputs).trans (tick_of_noFault hs), hs, tickedState_dt, tickedState_st,
    onlyChanges_tickedState, rfl⟩

end

/-- Settles O10. -/
theorem tickDecrements : Obligations.TickDecrements := fun s =>
  ⟨fun hs => ⟨_, tick_of_noFault hs, tickedState_dt, tickedState_st, onlyChanges_tickedState⟩, tickEvent_of_fault s⟩

/-- Settles O11, by induction on the number of ticks: the first one leaves an unfaulted machine with the other ticks to come. -/
theorem timerLaw : Obligations.TimerLaw := by
  intro n
  induction n with
  | zero => exact fun s rest _ hinputs => ⟨s, rfl, rfl, rfl, onlyChanges_refl, hinputs⟩
  | succ n ih =>
    intro s rest hs hinputs
    obtain ⟨u, hstep, hu, hdt₁, hst₁, hsame₁, hleft⟩ := step_of_tick_cons hs hinputs
    obtain ⟨t, hrun, hdt, hst, hsame, hrest⟩ := ih u rest hu hleft
    exact ⟨t, (core_run_succ n s u hstep).trans hrun, by omega, by omega, hsame₁.trans hsame, hrest⟩

end Sys2Proof.Machine
end

section
/-! PROOFS of the family 70_reset_and_hazards.md: the reset, the ROM load and its window, the launch, and the normal end. -/

namespace Sys2Proof.Machine

/-- Settles O13. -/
theorem resetEventClears : Obligations.ResetEventClears := fun _ => ⟨_, rfl, rfl, rfl⟩

/-! The ROM load. -/

/-- The state that a load of `bytes` leaves where it succeeds (70_reset_and_hazards.md R293). -/
def loadedState (bytes : List Byte) (s : State) : State :=
  { s with mem := Memory.writeBytes s.mem 0x200 bytes, host := { s.host with bootOpen := false } }

section
variable {bytes : List Byte} {s t : State}

theorem loadRomEvent_of_closed (hclosed : s.host.bootOpen = false) :
    eventStep (.loadRom bytes) s = .refused .loadOutsideBoot := by
  simp [eventStep, loadRomEvent, hclosed]

theorem loadRomEvent_of_open (hopen : s.host.bootOpen = true) :
    eventStep (.loadRom bytes) s = .next ((loadRom bytes s).getD s) := if_pos hopen

theorem loadRomEvent_of_open_of_gt (hopen : s.host.bootOpen = true) (hlen : bytes.length > 3584) :
    eventStep (.loadRom bytes) s = .next s := by
  rw [loadRomEvent_of_open hopen, loadRom_of_gt bytes s hlen, Option.getD_none]

theorem loadRomEvent_of_open_of_le (hopen : s.host.bootOpen = true) (hlen : bytes.length ≤ 3584) :
    eventStep (.loadRom bytes) s = .next (loadedState bytes s) := by
  rw [loadRomEvent_of_open hopen, loadRom_of_le bytes s hlen, Option.getD_some, loadedState]

theorem read_loadedState {k : Nat} (hwf : Memory.wf s.mem) (hlen : bytes.length ≤ 3584) (hk : k < bytes.length) :
    Memory.read (loadedState bytes s).mem (0x200 + k) = bytes.getD k 0 :=
  Memory.read_writeBytes s.mem 0x200 bytes k hwf (by omega) hk

theorem keepsMemoryOutside_loadedState : KeepsMemoryOutside 0x200 bytes.length s (loadedState bytes s) :=
  Memory.read_writeBytes_of_outside s.mem 0x200 bytes

theorem onlyChanges_loadedState : OnlyChanges [.mem, .host] s (loadedState bytes s) :=
  onlyChanges_of_parts fun p => by cases p <;> simp [Unchanged, loadedState]

/-! What closes the launch window (70_reset_and_hazards.md R294). -/

theorem bootClosed_of_tick (hs : s.fault = none) (h : eventStep .tick s = .next t) : t.host.bootOpen = false := by
  cases (tick_of_noFault hs).symm.trans h
  rfl

theorem bootClosed_of_cycle {b : Byte} (hs : s.fault = none) (h : eventStep (.cycle b) s = .next t) :
    t.host.bootOpen = false := by
  have hrun : runCycle (s.latchRnd b).closeBoot = .next t := (cycleEvent_of_noFault b s hs).symm.trans h
  exact congrArg HostSide.bootOpen (runCycle_host _ t hrun)

theorem bootClosed_of_loadRom (hlen : bytes.length ≤ 3584) (h : eventStep (.loadRom bytes) s = .next t) :
    t.host.bootOpen = false := by
  cases hboot : s.host.bootOpen with
  | false => cases (loadRomEvent_of_closed hboot).symm.trans h
  | true =>
    cases (loadRomEvent_of_open_of_le hboot hlen).symm.trans h
    rfl

end

/-- Settles O14: an image of at most 3584 bytes ends at `0xFFF` or below, so its copy stays inside the address space. -/
theorem loadRomCopies : Obligations.LoadRomCopies := by
  intro bytes s hopen
  refine ⟨fun hlen => ⟨loadRom_of_gt bytes s hlen, loadRomEvent_of_open_of_gt hopen hlen⟩, fun hlen => ?_⟩
  exact ⟨_, loadRomEvent_of_open_of_le hopen hlen, fun hwf _ hk => read_loadedState hwf hlen hk,
    keepsMemoryOutside_loadedState, onlyChanges_loadedState⟩

/-- Settles O15. -/
theorem loadRomOnlyAtBoot : Obligations.LoadRomOnlyAtBoot := fun _ _ _ =>
  ⟨loadRomEvent_of_closed, bootClosed_of_tick, fun _ => bootClosed_of_cycle, bootClosed_of_loadRom⟩

/-! The launch (70_reset_and_hazards.md R295). -/

/-- Loading an image into the reset state, whatever the host's side, leaves the reset state but for the image in memory. -/
theorem launched_loadedState {image : List Byte} {host : HostSide} (hlen : image.length ≤ 3584) :
    Launched image (loadedState image { State.reset with host := host }) := by
  obtain ⟨hregs, -, -, -, -, -, -, hglyphs, hzero, -⟩ := resetState
  have hkept := keepsMemoryOutside_loadedState (bytes := image) (s := { State.reset with host := host })
  refine ⟨hregs, rfl, rfl, rfl, rfl, rfl, rfl, rfl, rfl, rfl, rfl, fun a ha => ?_, fun k hk => ?_, fun a ha hout => ?_⟩
  · exact (hkept a (by omega)).trans (hglyphs a ha)
  · exact read_loadedState reset_memory_wf hlen hk
  · exact (hkept a (by omega)).trans (hzero a ha)

/-- Settles O16: the step takes the load from the list, and the launch window is open at reset. -/
theorem launchFromReset : Obligations.LaunchFromReset := fun _ hlen =>
  ⟨_, (step_of_inputs_cons rfl).trans (loadRomEvent_of_open_of_le rfl hlen), launched_loadedState hlen⟩

/-! The normal end of a run (70_reset_and_hazards.md R306). -/

section
variable {s : State}

/-- An address that the fetch reaches is its own 12-bit immediate. -/
theorem addrWord_setWidth_of_le {pc : Word} (hpc : pc.toNat ≤ 0xFFE) : addrWord (pc.setWidth 12) = pc := by
  apply BitVec.eq_of_toNat_eq
  rw [addrWord_toNat, BitVec.toNat_setWidth, Nat.mod_eq_of_lt (by omega)]

/-- A cycle at a self-jump puts `pc` back where it was. -/
theorem Finished.cycle (hs : Finished s) (b : Byte) :
    eventStep (.cycle b) s = .next { (s.latchRnd b).closeBoot with mode := .running } := by
  obtain ⟨hfault, hcan, hword⟩ := hs
  have hpc : s.pc.toNat ≤ 0xFFE := (canFetch_iff s).1 hcan
  have hdecode : decodeWord s.fetchWord = .ok (.jp (s.pc.setWidth 12)) := hword ▸ decodeWord_encode _
  calc eventStep (.cycle b) s
      = exec (.jp (s.pc.setWidth 12)) (s.latchRnd b).closeBoot.preAdvance := cycle_of_ok hfault hpc hdecode b
    _ = .next { (s.latchRnd b).closeBoot with pc := addrWord (s.pc.setWidth 12), mode := .running } := rfl
    _ = .next { (s.latchRnd b).closeBoot with mode := .running } := by rw [addrWord_setWidth_of_le hpc]; rfl

end

/-- Settles O17: nothing that `Finished` speaks of is changed by the cycle. -/
theorem selfJumpIsFinal : Obligations.SelfJumpIsFinal := by
  intro s b hs
  refine ⟨_, hs.cycle b, hs, onlyChanges_of_parts fun p => ?_, rfl⟩
  cases p <;> simp [Unchanged]

end Sys2Proof.Machine
end
